-- ==== Sys2Proof/Word.lean ====
section
/-! DEFINITION. The widths of spec/00_scope.md R9: accumulator and lane words, input bytes, command words. -/

namespace Sys2Proof

/-- A 32-bit value of the accumulator or of a lane (R9, R20, R21). -/
abbrev Word := BitVec 32

/-- An input byte, an IMM8 field or a RESULT value (R9, R26, R50). -/
abbrev Byte := BitVec 8

/-- A command word as it stands on the `cmd` port (R9, R50). -/
abbrev CmdWord := BitVec 16

end Sys2Proof
end

