-- ==== Sys2Proof/Syntax.lean ====
section
/-! DEFINITION. The commands of spec/opcode_table.json (R52, R58 to R60, R67, R68), the reasons a word is illegal
(R74), and the host-side assembler lines of R56 and R57. -/

namespace Sys2Proof

/-- The commands of HESH-MIX/1, one constructor per row of spec/opcode_table.json. Every byte is a legal operand
of CFG and of ABS (R51, R54), so the type of an operand is the byte itself. -/
inductive Instr where
  /-- `NOP`, R58. -/
  | nop
  /-- `CFG w`, R59: `w` is the requested width, a plain binary number. -/
  | cfg (w : Byte)
  /-- `INIT`, R60. -/
  | init
  /-- `ABS b`, R67: `b` is the input byte. -/
  | abs (b : Byte)
  /-- `FIN`, R68. -/
  | fin
deriving DecidableEq, Repr

/-- Why a word is ILLEGAL, by the three causes R74 lists. The block keeps none of this: all three raise ERR_ILL
(notes/assumptions/10.md). -/
inductive Illegal where
  /-- A reserved opcode, `0x5` to `0xF` (R55). -/
  | reservedOpcode
  /-- A field `Z` that is not zero (R53). -/
  | nonzeroZ
  /-- An IMM8 that is not zero in NOP, INIT or FIN (R53). -/
  | nonzeroImm
deriving DecidableEq, Repr

/-- One row of the opcode map of R52: a word matches when `(cmd & mask) == match`. -/
structure OpcodeRow where
  mnemonic : String
  matchBits : CmdWord
  maskBits : CmdWord
deriving DecidableEq, Repr

/-- One line of assembler text after reading its mnemonic and numbers (R56, R57). Operands are numbers as written,
not yet checked against their ranges. -/
inductive AsmLine where
  | blank
  | nop
  | cfg (w : Nat)
  | init
  | abs (b : Nat)
  | fin
  /-- `.word 0xhhhh`: a word written as data (R56). -/
  | word (n : Nat)
  /-- `HASH b0, …, bn-1` (R57). -/
  | hash (bs : List Nat)
  /-- `HASHW w, b0, …, bn-1` (R57). -/
  | hashw (w : Nat) (bs : List Nat)
deriving DecidableEq, Repr

end Sys2Proof
end

