-- ==== Sys2Proof/WellFormed.lean ====
section
/-! DEFINITION. Which commands and which assembler lines are well formed (R50 to R54, R56). -/

namespace Sys2Proof

/-- A command is well formed when its operand fits its field. The field IMM8 has eight bits and every byte is a
legal operand of CFG and of ABS (R51, R54: `CFG w` is a legal encoding for every `w` in 0 to 255), and the type of
the operands is the byte, so nothing is left to check. -/
def Instr.wf : Instr → Bool
  | .nop => true
  | .cfg _ => true
  | .init => true
  | .abs _ => true
  | .fin => true

/-- An operand of a line is in 0..255 (R56). -/
def operandFits (n : Nat) : Bool := n ≤ 255

/-- A line is well formed when its operands are in 0..255 and its data word has sixteen bits (R56, R57); any other
line is an assembly error. -/
def AsmLine.wf : AsmLine → Bool
  | .blank => true
  | .nop => true
  | .cfg w => operandFits w
  | .init => true
  | .abs b => operandFits b
  | .fin => true
  | .word n => n ≤ 0xFFFF
  | .hash bs => bs.all operandFits
  | .hashw w bs => operandFits w && bs.all operandFits

end Sys2Proof
end

