-- ==== Sys2Proof/Decode.lean ====
section
/-! DEFINITION. The command encoding of spec/30_encoding.md: the fields of a word (R50), the opcode map (R52), the
total decoder (R54) and, after it, the encoder. -/

namespace Sys2Proof

/-- `OP`, bits 15:12 of a command word (R50). -/
def opField (cmd : CmdWord) : BitVec 4 := cmd.extractLsb' 12 4

/-- `Z`, bits 11:8 of a command word, zero in every command (R50, R53). -/
def zField (cmd : CmdWord) : BitVec 4 := cmd.extractLsb' 8 4

/-- `IMM8`, bits 7:0 of a command word (R50, R51). -/
def imm8 (cmd : CmdWord) : Byte := cmd.extractLsb' 0 8

/-- The opcode map of R52: match and mask of each mnemonic. -/
def opcodeTable : List OpcodeRow :=
  [⟨"NOP", 0x0000#16, 0xFFFF#16⟩,
   ⟨"CFG", 0x1000#16, 0xFF00#16⟩,
   ⟨"INIT", 0x2000#16, 0xFFFF#16⟩,
   ⟨"ABS", 0x3000#16, 0xFF00#16⟩,
   ⟨"FIN", 0x4000#16, 0xFFFF#16⟩]

/-- `(cmd & mask) == match` (R52). -/
def OpcodeRow.covers (r : OpcodeRow) (cmd : CmdWord) : Bool := cmd &&& r.maskBits == r.matchBits

/-- Which of R74's causes makes a word illegal; only asked of a word that matches no row. -/
def illegalCause (cmd : CmdWord) : Illegal :=
  if 5 ≤ (opField cmd).toNat then .reservedOpcode
  else if zField cmd ≠ 0#4 then .nonzeroZ
  else .nonzeroImm

/-- The decoder of R54, total on every word; `.error` is the outcome ILLEGAL. -/
def decode (cmd : CmdWord) : Except Illegal Instr :=
  if cmd = 0x0000#16 then .ok .nop
  else if cmd.extractLsb' 8 8 = 0x10#8 then .ok (.cfg (imm8 cmd))
  else if cmd = 0x2000#16 then .ok .init
  else if cmd.extractLsb' 8 8 = 0x30#8 then .ok (.abs (imm8 cmd))
  else if cmd = 0x4000#16 then .ok .fin
  else .error (illegalCause cmd)

/-- Put `OP`, `Z` and `IMM8` at their places (R50). -/
def assembleFields (op z : BitVec 4) (imm : Byte) : CmdWord := op ++ z ++ imm

/-- The word of a command, from the opcode map of R52. -/
def encode : Instr → CmdWord
  | .nop => assembleFields 0x0#4 0x0#4 0x00#8
  | .cfg w => assembleFields 0x1#4 0x0#4 w
  | .init => assembleFields 0x2#4 0x0#4 0x00#8
  | .abs b => assembleFields 0x3#4 0x0#4 b
  | .fin => assembleFields 0x4#4 0x0#4 0x00#8

/-- The row of the opcode map a command belongs to (R52). -/
def Instr.row : Instr → OpcodeRow
  | .nop => ⟨"NOP", 0x0000#16, 0xFFFF#16⟩
  | .cfg _ => ⟨"CFG", 0x1000#16, 0xFF00#16⟩
  | .init => ⟨"INIT", 0x2000#16, 0xFFFF#16⟩
  | .abs _ => ⟨"ABS", 0x3000#16, 0xFF00#16⟩
  | .fin => ⟨"FIN", 0x4000#16, 0xFFFF#16⟩

/-- The number the low `nbits` bits of `w` make: the bits of an instruction above `nbits` are zero. -/
def lowBits (nbits w : Nat) : Nat := w % 2 ^ nbits

/-- The instruction the decoder reads from the bits `w` as spec/opcode_table.json numbers them. A command is one
16-bit word taken whole (R41, R50), so a number with a bit above bit 15 is no command
(notes/assumptions/14.md). -/
def decodeTableWord (nbits w : Nat) : Option Instr :=
  if lowBits nbits w < 2 ^ 16 then
    match decode (BitVec.ofNat 16 (lowBits nbits w)) with
    | .ok i => some i
    | .error _ => none
  else none

end Sys2Proof
end

