-- ==== Sys2Proof/Config.lean ====
section
/-! DEFINITION. What one implementation fixes and what the spec leaves open
(spec/92_eei_decisions.md, spec/93_implementation_defined.md). An opaque constant has no body, so no proof can
learn its value. -/

namespace Sys2Proof

/-- `FOLD_ORDER` of 92_eei_decisions.md D14: the order in which the fold visits the lanes. -/
inductive FoldOrder where
  | ascending
  | descending
deriving DecidableEq, Repr

/-- `HEX_CASE` of D26: the case of the hexadecimal digits of the host-side rendering (R8). -/
inductive HexCase where
  | upper
  | lower
deriving DecidableEq, Repr

namespace Config

/-- The fold order of R65: ascending (D14: decided, unconfirmed; notes/assumptions/7.md). -/
def foldOrder : FoldOrder := .ascending

/-- `CMD_LATENCY - 1` of R86, where `CMD_LATENCY ≥ 1` is OPEN (D18; notes/assumptions/4.md). -/
opaque cmdLatencyPred : Nat

/-- `CMD_LATENCY` of R86: a positive number of rising edges, otherwise free. -/
def cmdLatency : Nat := cmdLatencyPred + 1

/-- What `status` shows while its value is unspecified (R84, R87; notes/assumptions/5.md): a value that may depend on
the whole state `s` and on the counter of draws. -/
opaque unspecifiedStatus {σ : Type} (s : σ) (draw : Nat) : BitVec 16

/-- What `result` shows while its value is unspecified (R84, R87; notes/assumptions/5.md). -/
opaque unspecifiedResult {σ : Type} (s : σ) (draw : Nat) : Byte

/-- What `err` shows while its value is unspecified (R84, R87; notes/assumptions/5.md). -/
opaque unspecifiedErr {σ : Type} (s : σ) (draw : Nat) : Bool

/-- What `cmd_ready` shows before the first reset while `rst = 0` (R84; notes/assumptions/3.md). -/
opaque unspecifiedReady {σ : Type} (s : σ) (draw : Nat) : Bool

/-- `PLATFORM_ADDRESS` of R42 (D21): where a system places the block. No rule reads it
(notes/assumptions/17.md). -/
opaque platformAddress : Nat

end Config

end Sys2Proof
end

