-- ==== Sys2Proof/Machine/Constants.lean ====
section
/-! DEFINITION. The literals of R22 and R63, as printed in the spec (90_conflicts.md C1; D25; N2: unaudited against
the repository; notes/assumptions/8.md). -/

namespace Sys2Proof.Machine

/-- Initial value of ACC (R22). -/
def accInit : Word := 0x5A5A5A5A#32

/-- Initial value of LANE[0] (R22). -/
def lane0Init : Word := 0x12345678#32

/-- Initial value of LANE[1] (R22). -/
def lane1Init : Word := 0x9ABCDEF0#32

/-- Initial value of LANE[2] (R22). -/
def lane2Init : Word := 0xFEDCBA09#32

/-- Initial value of LANE[3] (R22). -/
def lane3Init : Word := 0x87654321#32

/-- The multiplier of step 3 (R63). -/
def mixMultiplier : Word := 0x9E3779B9#32

end Sys2Proof.Machine
end

