-- ==== Sys2Proof/Machine/State.lean ====
section
/-! DEFINITION. The state of the block (spec/10_state.md R20 to R30, R34), of its input pins (R18), the model's own
fields for what the spec leaves open, and the state right after reset (R35). -/

namespace Sys2Proof.Machine

/-- The four lanes `LANE[0..3]` (R21): none aliases another, none is hardwired. -/
structure Lanes where
  l0 : Word
  l1 : Word
  l2 : Word
  l3 : Word
deriving DecidableEq, Repr

/-- The MixState (R16, R20, R21). -/
structure MixState where
  /-- `ACC` (R20). -/
  acc : Word
  /-- `LANE[0..3]` (R21). -/
  lane : Lanes
deriving DecidableEq, Repr

/-- The architectural registers of the block: every row of R35 but busy. -/
structure Regs extends MixState where
  /-- `WIDTH` (R24): 2, 4 or 8, and 0 when unconfigured. -/
  width : BitVec 4
  /-- `CFGV` (R25). -/
  cfgv : Bool
  /-- `RESULT` (R26). -/
  result : Byte
  /-- `NE` (R27). -/
  ne : Bool
  /-- `DONE` (R28). -/
  done : Bool
  /-- `ERR_CFG` (R30). -/
  errCfg : Bool
  /-- `ERR_NOCFG` (R30). -/
  errNocfg : Bool
  /-- `ERR_ILL` (R30). -/
  errIll : Bool
deriving DecidableEq, Repr

/-- The levels the host drives at the input ports at one rising edge of `clk` (R18). -/
structure Pins where
  rst : Bool
  cmdValid : Bool
  cmd : CmdWord
deriving DecidableEq, Repr

/-- The whole state. Beyond the registers: the busy condition of R34, and the model's own fields, which hold the
host's drive of the pins and the free values of R86 and R87 (notes/assumptions/2.md to 5.md). -/
structure State extends Regs where
  /-- busy (R34): the rising edges still to pass before the accepted command completes; 0 is not busy. -/
  busy : Nat
  /-- Whether `rst` has been 1 at a rising edge since power-on (R84). -/
  wasReset : Bool
  /-- What the host drives at the coming rising edges; the head is at the pins now; after the list, `rst` and
  `cmd_valid` stay 0. -/
  inputs : List Pins
  /-- Free values: how many edges each command to come stays busy (R86); zeros after the list. -/
  stalls : List Nat
  /-- The number of edges so far, to which the free outputs are applied (R87). -/
  draws : Nat
deriving DecidableEq, Repr

/-- The three error flags of R30, as causes to raise (R76). -/
inductive ErrKind where
  /-- ERR_CFG (R73). -/
  | cfg
  /-- ERR_NOCFG (R75). -/
  | nocfg
  /-- ERR_ILL (R74). -/
  | ill
deriving DecidableEq, Repr

/-- The faults that stop the machine: none. An error of the block is a sticky flag and execution goes on
(R72), so this type has no constructor; nobody raises a fault, which is what the spec says and so is safe
(notes/assumptions/11.md). -/
inductive Fault where
deriving DecidableEq, Repr

/-- Why a step is refused. -/
inductive Refusal where
  /-- An instruction whose meaning is not modelled. Nobody raises it: every instruction has its meaning. Safe. -/
  | notModelled (mnemonic : String)
  /-- A command is offered before the first reset: raised by `step` alone. The table of
  93_implementation_defined.md says `refuse`: such a program has no meaning (R84). Safe. -/
  | commandBeforeReset
deriving DecidableEq, Repr

/-- The initial MixState, `(A_0, L_0)` of R69, by the constants of R22. -/
def mixStart : MixState := ⟨accInit, ⟨lane0Init, lane1Init, lane2Init, lane3Init⟩⟩

/-- The registers right after reset (R35). -/
def Regs.reset : Regs where
  toMixState := mixStart
  width := 0#4
  cfgv := false
  result := 0x00#8
  ne := false
  done := false
  errCfg := false
  errNocfg := false
  errIll := false

/-- The machine right after reset (R35): not busy, with nothing driven at the pins and no free value drawn
(notes/assumptions/2.md to 5.md). -/
def State.reset : State where
  toRegs := Regs.reset
  busy := 0
  wasReset := true
  inputs := []
  stalls := []
  draws := 0

end Sys2Proof.Machine
end

