-- ==== Sys2Proof/Machine/Operands.lean ====
section
/-! DEFINITION. The operand forms: what an IMM8 field stands for (R51), which widths are legal (R24, R59), and which
lane a byte selects (R63 step 5, R64). -/

namespace Sys2Proof.Machine

/-- `zext_32(b)`: the 32-bit form of an input byte (R13, R51). -/
def zext32 (b : Byte) : Word := b.setWidth 32

/-- The legal output widths are 2, 4 and 8 (R24, R51, R59). -/
def legalWidth (w : Byte) : Bool := w == 2#8 || w == 4#8 || w == 8#8

/-- The four bits `WIDTH` holds of a legal width (R24). -/
def widthField (w : Byte) : BitVec 4 := w.setWidth 4

/-- The lane a byte selects, `i = b mod 4` (R64). -/
def laneIndex (b : Byte) : Fin 4 := ⟨b.toNat % 4, Nat.mod_lt _ (by decide)⟩

end Sys2Proof.Machine
end

