-- ==== Sys2Proof/Machine/Ops.lean ====
section
/-! DEFINITION. The named operations the meanings share: the operators on 32-bit values (R12), the accesses to the
lanes (R14, R21), MIX_INIT (R23), the start of a session (R59, R60), and raising an error (R72, R79), which is all
this block has in the place of taking an exception. There is no return from one (R79). -/

namespace Sys2Proof.Machine

/-- `a ^ b` (R12). -/
def xor32 (a b : Word) : Word := a ^^^ b

/-- `a & b` (R12). -/
def and32 (a b : Word) : Word := a &&& b

/-- `a | b` (R12). -/
def or32 (a b : Word) : Word := a ||| b

/-- `a * b = (a × b) mod 2^32` (R12, R70). -/
def mul32 (a b : Word) : Word := a * b

/-- `a << n`, truncated to 32 bits (R12). -/
def shl32 (a : Word) (n : Nat) : Word := a <<< n

/-- `a >> n`, logical (R12). -/
def shr32 (a : Word) (n : Nat) : Word := a >>> n

/-- `rotl32(x, n) = ((x << n) | (x >> (32-n))) & 0xFFFFFFFF` (R12), used with 5, 7 and 13. -/
def rotl32 (x : Word) (n : Nat) : Word := and32 (or32 (shl32 x n) (shr32 x (32 - n))) 0xFFFFFFFF#32

/-- Read `LANE[i]` (R14). -/
def Lanes.get (l : Lanes) (i : Fin 4) : Word :=
  match i with
  | 0 => l.l0
  | 1 => l.l1
  | 2 => l.l2
  | 3 => l.l3

/-- `LANE[i] <- v` (R14). -/
def Lanes.set (l : Lanes) (i : Fin 4) (v : Word) : Lanes :=
  match i with
  | 0 => { l with l0 := v }
  | 1 => { l with l1 := v }
  | 2 => { l with l2 := v }
  | 3 => { l with l3 := v }

/-- `MIX_INIT` (R23): ACC and the lanes take their initial constants. -/
def mixInit (s : State) : State := { s with toMixState := mixStart }

/-- Start a session, the common end of INIT and of a valid CFG (R59, R60): MIX_INIT, then NE, DONE and RESULT are
cleared. -/
def startSession (s : State) : State := { mixInit s with ne := false, done := false, result := 0x00#8 }

/-- `raise ERR_X` (R14, R72, R79): set the sticky flag and change nothing else. -/
def raise (e : ErrKind) (s : State) : State :=
  match e with
  | .cfg => { s with errCfg := true }
  | .nocfg => { s with errNocfg := true }
  | .ill => { s with errIll := true }

/-- The check that INIT, ABS and FIN begin with (R75): unconfigured, they raise ERR_NOCFG and do nothing else;
configured, the state becomes `t`. -/
def whenConfigured (s t : State) : Host.Outcome State Fault Refusal :=
  if s.cfgv then .next t else .next (raise .nocfg s)

end Sys2Proof.Machine
end

