-- ==== Sys2Proof/Machine/Hash.lean ====
section
/-! DEFINITION. The functions of the hash (spec/41_absorb_finalize.md): MIX by its eight steps (R63), FOLD (R65),
TRUNC (R66, R13), and the hash function of a byte sequence (R69). -/

namespace Sys2Proof.Machine

/-- Step 1: `a ^ zext_32(b)`. -/
def mixStep1 (a : Word) (b : Byte) : Word := xor32 a (zext32 b)

/-- Step 2: `a ^ rotl32(a, 7)`; not injective (R70). -/
def mixStep2 (a : Word) : Word := xor32 a (rotl32 a 7)

/-- Step 3: `a * 0x9E3779B9` modulo 2^32. -/
def mixStep3 (a : Word) : Word := mul32 a mixMultiplier

/-- Step 4: `rotl32(a, 13)`. -/
def mixStep4 (a : Word) : Word := rotl32 a 13

/-- Steps 1 to 4: the accumulator that step 5 mixes into the selected lane. -/
def mixHead (a : Word) (b : Byte) : Word := mixStep4 (mixStep3 (mixStep2 (mixStep1 a b)))

/-- Step 5, the lane: `rotl32(L[i] ^ a, 5)`. -/
def mixLane (l a : Word) : Word := rotl32 (xor32 l a) 5

/-- Step 6: `a ^ (a << 3)`. -/
def mixStep6 (a : Word) : Word := xor32 a (shl32 a 3)

/-- Step 7: `a ^ (a >> 11)`. -/
def mixStep7 (a : Word) : Word := xor32 a (shr32 a 11)

/-- Step 8: `a ^ (a << 15)`. -/
def mixStep8 (a : Word) : Word := xor32 a (shl32 a 15)

/-- The accumulator's part of step 5, then steps 6 to 8; `l` is the new lane value. -/
def mixTail (a l : Word) : Word := mixStep8 (mixStep7 (mixStep6 (xor32 a l)))

/-- `MIX(a, L, b)` when step 5 takes lane `i` (R63). -/
def mixAt (m : MixState) (b : Byte) (i : Fin 4) : MixState where
  acc := mixTail (mixHead m.acc b) (mixLane (m.lane.get i) (mixHead m.acc b))
  lane := m.lane.set i (mixLane (m.lane.get i) (mixHead m.acc b))

/-- `MIX(a, L, b)` (R63), by the four lanes a byte can select (R64). The cases are written out so that an unknown
byte leaves the function unevaluated; `mix_eq_mixAt` says it in one line. -/
def mix (m : MixState) (b : Byte) : MixState :=
  match laneIndex b with
  | 0 => mixAt m b 0
  | 1 => mixAt m b 1
  | 2 => mixAt m b 2
  | 3 => mixAt m b 3

/-- One turn of the fold: `a ^ L[j]`, then the rotation by 7 (R65). -/
def foldLane (l : Lanes) (a : Word) (j : Fin 4) : Word := rotl32 (xor32 a (l.get j)) 7

/-- The lanes in the order the fold visits them (R65, D14). -/
def foldLanes : FoldOrder → List (Fin 4)
  | .ascending => [0, 1, 2, 3]
  | .descending => [3, 2, 1, 0]

/-- `FOLD(a, L)` (R65), with the order as the parameter `FOLD_ORDER` of D14. -/
def fold (o : FoldOrder) (m : MixState) : Word := (foldLanes o).foldl (foldLane m.lane) m.acc

/-- `mask(w) = 2^w - 1` as a 32-bit value (R13). -/
def mask (w : BitVec 4) : Word := (1#32 <<< w.toNat) - 1#32

/-- `TRUNC(v, w) = v & mask(w)` (R66). -/
def trunc (v : Word) (w : BitVec 4) : Word := and32 v (mask w)

/-- The value FIN publishes of a non-empty session: the low eight bits of the truncated fold (R68). -/
def digest (o : FoldOrder) (w : BitVec 4) (m : MixState) : Byte := (trunc (fold o m) w).setWidth 8

/-- `(A_n, L_n)` of R69: MIX applied once per byte, left to right (R38). -/
def absorbAll (m : MixState) (d : List Byte) : MixState := d.foldl mix m

/-- `H_w(d)` of R69: 0 for the empty sequence, else the digest of the mixed state. -/
def hashOf (o : FoldOrder) (w : BitVec 4) (d : List Byte) : Byte :=
  match d with
  | [] => 0x00#8
  | _ :: _ => digest o w (absorbAll mixStart d)

end Sys2Proof.Machine
end

