-- ==== Sys2Proof/Machine/Mixing.lean ====
section
/-! DEFINITION. The mixing commands ABS and FIN (spec/41_absorb_finalize.md R67, R68). -/

namespace Sys2Proof.Machine

/-- What ABS does when configured (R67): MIX, NE set, DONE cleared, RESULT kept. -/
def absorb (b : Byte) (s : State) : State :=
  { s with toMixState := mix s.toMixState b, ne := true, done := false }

/-- The RESULT that FIN writes (R68): 0 for an empty session, without fold or mask, else the digest. -/
def finResult (r : Regs) : Byte := if r.ne then digest Config.foldOrder r.width r.toMixState else 0x00#8

/-- What FIN does when configured (R68): RESULT written and DONE set; ACC, the lanes and NE are only read. -/
def publish (s : State) : State := { s with result := finResult s.toRegs, done := true }

/-- `ABS b` (R67): absorb one byte, or ERR_NOCFG. -/
def execAbs (b : Byte) (s : State) : Host.Outcome State Fault Refusal := whenConfigured s (absorb b s)

/-- `FIN` (R68): finalise and publish, or ERR_NOCFG. -/
def execFin (s : State) : Host.Outcome State Fault Refusal := whenConfigured s (publish s)

end Sys2Proof.Machine
end

