-- ==== Sys2Proof/Machine/Session.lean ====
section
/-! DEFINITION. The session commands NOP, CFG and INIT (spec/40_session.md R58 to R60). -/

namespace Sys2Proof.Machine

/-- `NOP` (R58): no state changes, configured or not. -/
def execNop (s : State) : Host.Outcome State Fault Refusal := .next s

/-- What a valid CFG does (R59): WIDTH and CFGV are written and a new session starts. -/
def configure (w : Byte) (s : State) : State :=
  startSession { s with width := widthField w, cfgv := true }

/-- `CFG w` (R59): a legal width constructs a new engine, any other raises ERR_CFG and does nothing else. CFG does
not look at CFGV (R77). -/
def execCfg (w : Byte) (s : State) : Host.Outcome State Fault Refusal :=
  if legalWidth w then .next (configure w s) else .next (raise .cfg s)

/-- `INIT` (R60): start a new hash computation, or ERR_NOCFG. -/
def execInit (s : State) : Host.Outcome State Fault Refusal := whenConfigured s (startSession s)

end Sys2Proof.Machine
end

