-- ==== Sys2Proof/Machine/Dispatch.lean ====
section
/-! DEFINITION. The dispatch: one arm per constructor of Instr, each one direct call of its meaning. -/

namespace Sys2Proof.Machine

def exec (i : Instr) (s : State) : Host.Outcome State Fault Refusal :=
  match i with
  | .nop => Sys2Proof.Machine.execNop s
  | .cfg w => Sys2Proof.Machine.execCfg w s
  | .init => Sys2Proof.Machine.execInit s
  | .abs b => Sys2Proof.Machine.execAbs b s
  | .fin => Sys2Proof.Machine.execFin s

end Sys2Proof.Machine
end

