-- ==== Sys2Proof/Machine/Flags.lean ====
section
/-! DEFINITION. The views of the flags: the STATUS word (R29) and the OR of the error flags (R78). -/

namespace Sys2Proof.Machine

/-- A flag as one bit. -/
def flagBit (b : Bool) : BitVec 1 := BitVec.ofBool b

/-- The STATUS word of R29, from bit 15 down: reserved, WIDTH, reserved, ERR_ILL, ERR_NOCFG, ERR_CFG, DONE, NE,
CFGV. -/
def statusWord (r : Regs) : BitVec 16 :=
  0#4 ++ r.width ++ 0#2 ++ flagBit r.errIll ++ flagBit r.errNocfg ++ flagBit r.errCfg
    ++ flagBit r.done ++ flagBit r.ne ++ flagBit r.cfgv

/-- `ERR_CFG | ERR_NOCFG | ERR_ILL` (R18, R78). -/
def errLine (r : Regs) : Bool := r.errCfg || r.errNocfg || r.errIll

end Sys2Proof.Machine
end

