-- ==== Sys2Proof/Machine/Ports.lean ====
section
/-! DEFINITION. The ports of R18 and what one rising edge of `clk` does around a command: sampling the pins,
acceptance and the busy condition (R18, R86), reset (R83), the outputs (R87), the execution of one accepted word
(R54, R74), and sequences of commands and words (R44). -/

namespace Sys2Proof.Machine

/-- The host offers a word: `rst = 0`, `cmd_valid = 1`. -/
def Pins.offer (w : CmdWord) : Pins := ⟨false, true, w⟩

/-- The host drives nothing: `rst = 0`, `cmd_valid = 0`. The level of `cmd` does not matter then (R18). -/
def Pins.idle : Pins := ⟨false, false, 0#16⟩

/-- The host drives `rst = 1`. -/
def Pins.reset : Pins := ⟨true, false, 0#16⟩

/-- The levels at the input pins at the coming rising edge (notes/assumptions/2.md). -/
def pins (s : State) : Pins := s.inputs.headD Pins.idle

/-- `cmd_ready` (R18, R83, R86): 0 while `rst = 1`, unspecified before the first reset (R84), else 1 exactly when no
command executes. -/
def cmdReady (s : State) : Bool :=
  if (pins s).rst then false
  else if s.wasReset then s.busy == 0
  else Config.unspecifiedReady s s.draws

/-- Whether `status`, `result` and `err` reflect the accepted commands (R87), which presupposes a reset (R84). -/
def outputsValid (s : State) : Bool := s.wasReset && cmdReady s

/-- The `status` port (R29, R87). -/
def statusPort (s : State) : BitVec 16 :=
  if outputsValid s then statusWord s.toRegs else Config.unspecifiedStatus s s.draws

/-- The `result` port (R26, R87). -/
def resultPort (s : State) : Byte := if outputsValid s then s.result else Config.unspecifiedResult s s.draws

/-- The `err` port (R78, R87). -/
def errPort (s : State) : Bool := if outputsValid s then errLine s.toRegs else Config.unspecifiedErr s s.draws

/-- A word is offered at the coming edge (R18). -/
def offered (s : State) : Bool := !(pins s).rst && (pins s).cmdValid

/-- The coming edge accepts the offered word (R18): `rst = 0`, `cmd_valid = 1` and `cmd_ready = 1`. -/
def accepts (s : State) : Bool := s.wasReset && offered s && s.busy == 0

/-- How many edges after the accepting one the next accepted command completes: the free value at the head of the
list, at most `CMD_LATENCY - 1` (R86; notes/assumptions/4.md). -/
def stallOf (stalls : List Nat) : Nat :=
  match stalls.headD 0 with
  | 0 => 0
  | k + 1 => min (k + 1) Config.cmdLatencyPred

/-- An edge with `rst = 1` (R83): every register and the busy condition take their reset values, whatever was in
flight. -/
def resetEdge (s : State) : State :=
  { toRegs := Regs.reset, busy := 0, wasReset := true, inputs := s.inputs.tail, stalls := s.stalls,
    draws := s.draws + 1 }

/-- An edge that accepts nothing: a command in flight comes one edge closer to its completion (R86), and an offered
word has no effect (R18). -/
def quietEdge (s : State) : State :=
  { s with busy := s.busy - 1, inputs := s.inputs.tail, draws := s.draws + 1 }

/-- What an accepting edge does beside the command's own effect: the pins move on, and the block is busy for the
drawn number of edges (R86). -/
def acceptEdge (s : State) : State :=
  { s with busy := stallOf s.stalls, inputs := s.inputs.tail, stalls := s.stalls.tail, draws := s.draws + 1 }

/-- The effect of one command word (R54): that of the command it decodes to, or ERR_ILL alone (R74, R79). -/
def execWord (w : CmdWord) (s : State) : Host.Outcome State Fault Refusal :=
  match decode w with
  | .ok i => exec i s
  | .error _ => .next (raise .ill s)

/-- Go on from a next state; a fault or a refusal stays. -/
def andThen (o : Host.Outcome State Fault Refusal) (f : State → Host.Outcome State Fault Refusal) :
    Host.Outcome State Fault Refusal :=
  match o with
  | .next t => f t
  | .fault r => .fault r
  | .refused r => .refused r

/-- The edge that accepts the word at the pins: its effect and the edge's bookkeeping, atomically (R45). -/
def acceptWord (s : State) : Host.Outcome State Fault Refusal :=
  andThen (execWord (pins s).cmd s) (fun t => .next (acceptEdge t))

/-- The state after a sequence of accepted words, `step(cn, … step(c1, s0))` of R44. -/
def execWords : List CmdWord → State → Host.Outcome State Fault Refusal
  | [], s => .next s
  | w :: ws, s => andThen (execWord w s) (execWords ws)

/-- The state after a sequence of legal commands (R44). -/
def execAll : List Instr → State → Host.Outcome State Fault Refusal
  | [], s => .next s
  | i :: is, s => andThen (exec i s) (execAll is)

/-- The host drives these levels at the next edges, then the levels it would have driven before. -/
def drive (ps : List Pins) (s : State) : State := { s with inputs := ps ++ s.inputs }

/-- A host that keeps R86 holds a word, through `busy` edges that do not accept it, to the edge that does. -/
def heldWord (busy : Nat) (w : CmdWord) : List Pins := List.replicate (busy + 1) (Pins.offer w)

/-- What a host that keeps R86 drives to have these words accepted, one after the other, by a block that is busy for
`busy` edges now and draws `stalls` later. -/
def schedule : List CmdWord → Nat → List Nat → List Pins
  | [], _, _ => []
  | w :: ws, busy, stalls => heldWord busy w ++ schedule ws (stallOf stalls) stalls.tail

end Sys2Proof.Machine
end

