-- ==== Sys2Proof/Machine/Step.lean ====
section
/-! DEFINITION. One step of the machine: one rising edge of `clk` (R18). The edge that accepts a word executes it
whole (R15, R45; notes/assumptions/1.md). -/

namespace Sys2Proof.Machine

/-- One rising edge: reset when `rst = 1` (R83); a word offered before the first reset is refused (R84); a word
offered while the block is ready is executed (R18, R44); otherwise nothing is accepted. -/
def step (s : State) : Host.Outcome State Fault Refusal :=
  if (pins s).rst then .next (resetEdge s)
  else if !s.wasReset && offered s then .refused .commandBeforeReset
  else if accepts s then acceptWord s
  else .next (quietEdge s)

/-- The state after `n` rising edges, stopping at the first refusal. -/
def edges : Nat → State → Host.Outcome State Fault Refusal
  | 0, s => .next s
  | n + 1, s => andThen (step s) (edges n)

/-- `s` with the table word `w` offered at the very next edge, to a block that has been reset and is not busy
(notes/assumptions/15.md). -/
def State.withFetchWord (s : State) (nbits w : Nat) : State :=
  { s with busy := 0, wasReset := true, inputs := Pins.offer (BitVec.ofNat 16 (lowBits nbits w)) :: s.inputs }

end Sys2Proof.Machine
end

