-- ==== Sys2Proof/Machine/Format.lean ====
section
/-! DEFINITION. The host-side renderings of a hash value (spec/00_scope.md R8, 95_test_vectors.md section 5): no
part of the block, a normative reference for its host. A string is a list of characters. -/

namespace Sys2Proof.Machine

/-- The digit of one bit (R8). -/
def bitChar (b : Bool) : Char := if b then '1' else '0'

/-- `bin(v)` (R8): the `width` low bits of `v`, most significant first. -/
def binString : Nat → Byte → List Char
  | 0, _ => []
  | n + 1, v => bitChar (v.getLsbD n) :: binString n v

/-- The sixteen hexadecimal digits in one case (R8, D26). -/
def hexAlphabet : HexCase → List Char
  | .upper => ['0', '1', '2', '3', '4', '5', '6', '7', '8', '9', 'A', 'B', 'C', 'D', 'E', 'F']
  | .lower => ['0', '1', '2', '3', '4', '5', '6', '7', '8', '9', 'a', 'b', 'c', 'd', 'e', 'f']

/-- The digit of a number below 16. -/
def hexChar (c : HexCase) (n : Nat) : Char := (hexAlphabet c).getD n '0'

/-- How many hexadecimal digits a width takes: `ceil(width/4)` (R8, C7). -/
def hexLength (width : Nat) : Nat := (width + 3) / 4

/-- The `n` low hexadecimal digits of `v`, most significant first. -/
def hexDigits (c : HexCase) : Nat → Nat → List Char
  | 0, _ => []
  | n + 1, v => hexChar c (v / 16 ^ n % 16) :: hexDigits c n v

/-- `hex(v)` at a width (R8): zero-padded to `ceil(width/4)` digits. -/
def hexString (c : HexCase) (width : Nat) (v : Byte) : List Char := hexDigits c (hexLength width) v.toNat

/-- The value of a digit in base 2, 10 or 16, upper or lower case. -/
def digitValue (c : Char) : Option Nat :=
  let n := c.toNat
  if 48 ≤ n ∧ n ≤ 57 then some (n - 48)
  else if 65 ≤ n ∧ n ≤ 70 then some (n - 55)
  else if 97 ≤ n ∧ n ≤ 102 then some (n - 87)
  else none

/-- Read digits of a base on from a number read so far. -/
def parseDigits (base : Nat) : Nat → List Char → Option Nat
  | acc, [] => some acc
  | acc, c :: cs =>
    match digitValue c with
    | some d => if d < base then parseDigits base (acc * base + d) cs else none
    | none => none

/-- Read a non-empty string of digits of a base (S9: parsing a rendering back). -/
def parseNumber (base : Nat) (cs : List Char) : Option Nat :=
  match cs with
  | [] => none
  | _ :: _ => parseDigits base 0 cs

end Sys2Proof.Machine
end

