-- ==== Sys2Proof/Machine/Assembler.lean ====
section
/-! DEFINITION. The host-side assembler (spec/30_encoding.md R56, R57): no part of the block. A line is a list of
characters; what R56 leaves open of the text is in notes/assumptions/12.md. -/

namespace Sys2Proof.Machine

/-- `HASH b0, …, bn-1` expands to `INIT`, one ABS per byte, `FIN` (R57). -/
def expandHash (bs : List Byte) : List Instr := .init :: (bs.map .abs ++ [.fin])

/-- `HASHW w, b0, …, bn-1` expands to `CFG w`, one ABS per byte, `FIN` (R57). -/
def expandHashw (w : Byte) (bs : List Byte) : List Instr := .cfg w :: (bs.map .abs ++ [.fin])

/-- An operand in 0..255 as a byte. -/
def operandByte (n : Nat) : Byte := BitVec.ofNat 8 n

/-- The words of a line whose operands are in range (R56, R57). -/
def lineWords : AsmLine → List CmdWord
  | .blank => []
  | .nop => [encode .nop]
  | .cfg w => [encode (.cfg (operandByte w))]
  | .init => [encode .init]
  | .abs b => [encode (.abs (operandByte b))]
  | .fin => [encode .fin]
  | .word n => [BitVec.ofNat 16 n]
  | .hash bs => (expandHash (bs.map operandByte)).map encode
  | .hashw w bs => (expandHashw (operandByte w) (bs.map operandByte)).map encode

/-- Assemble a line: an operand out of range is an assembly error and emits no word (R56). -/
def assemble (l : AsmLine) : Option (List CmdWord) := if l.wf then some (lineWords l) else none

/-- White space inside a line. -/
def isBlankChar (c : Char) : Bool := c == ' ' || c == '\t'

/-- Drop white space at both ends. -/
def trimBlanks (cs : List Char) : List Char :=
  ((cs.dropWhile isBlankChar).reverse.dropWhile isBlankChar).reverse

/-- Drop a comment, from `;` to the end of the line (R56). -/
def dropComment (cs : List Char) : List Char := cs.takeWhile (fun c => c != ';')

/-- Split at commas (R57 separates operands by them). -/
def splitCommas : List Char → List (List Char)
  | [] => [[]]
  | c :: cs =>
    if c = ',' then [] :: splitCommas cs
    else
      match splitCommas cs with
      | [] => [[c]]
      | f :: fs => (c :: f) :: fs

/-- A decimal or `0x` hexadecimal number (R56). -/
def parseOperand (cs : List Char) : Option Nat :=
  match cs with
  | '0' :: 'x' :: ds => parseNumber 16 ds
  | ds => parseNumber 10 ds

/-- The operands after a mnemonic: none, or numbers separated by commas. -/
def parseOperands (cs : List Char) : Option (List Nat) :=
  match trimBlanks cs with
  | [] => some []
  | c :: rest => (splitCommas (c :: rest)).mapM (fun f => parseOperand (trimBlanks f))

/-- The data word of `.word 0xhhhh`: four hexadecimal digits (R56). -/
def parseDataWord (cs : List Char) : Option Nat :=
  match trimBlanks cs with
  | ['0', 'x', a, b, c, d] => parseNumber 16 [a, b, c, d]
  | _ => none

/-- Give a mnemonic its operands (R56, R57). -/
def lineOf (mnemonic rest : List Char) : Option AsmLine :=
  if mnemonic = ['.', 'w', 'o', 'r', 'd'] then (parseDataWord rest).map .word
  else
    match parseOperands rest with
    | none => none
    | some ops =>
      if mnemonic = ['N', 'O', 'P'] then (match ops with | [] => some .nop | _ => none)
      else if mnemonic = ['C', 'F', 'G'] then (match ops with | [w] => some (.cfg w) | _ => none)
      else if mnemonic = ['I', 'N', 'I', 'T'] then (match ops with | [] => some .init | _ => none)
      else if mnemonic = ['A', 'B', 'S'] then (match ops with | [b] => some (.abs b) | _ => none)
      else if mnemonic = ['F', 'I', 'N'] then (match ops with | [] => some .fin | _ => none)
      else if mnemonic = ['H', 'A', 'S', 'H'] then some (.hash ops)
      else if mnemonic = ['H', 'A', 'S', 'H', 'W'] then (match ops with | w :: bs => some (.hashw w bs) | [] => none)
      else none

/-- Read one line of text (R56). -/
def parseLine (text : List Char) : Option AsmLine :=
  match trimBlanks (dropComment text) with
  | [] => some .blank
  | c :: cs =>
    lineOf ((c :: cs).takeWhile (fun x => !isBlankChar x)) ((c :: cs).dropWhile (fun x => !isBlankChar x))

/-- Read and assemble one line of text; `none` is an assembly error (R56). -/
def assembleText (text : List Char) : Option (List CmdWord) := (parseLine text).bind assemble

/-- A line of text for a command, its operand in hexadecimal (R56). -/
def asmText : Instr → List Char
  | .nop => ['N', 'O', 'P']
  | .cfg w => ['C', 'F', 'G', ' ', '0', 'x'] ++ hexDigits .upper 2 w.toNat
  | .init => ['I', 'N', 'I', 'T']
  | .abs b => ['A', 'B', 'S', ' ', '0', 'x'] ++ hexDigits .upper 2 b.toNat
  | .fin => ['F', 'I', 'N']

end Sys2Proof.Machine
end

