-- ==== Sys2Proof/Safety.lean ====
section
/-! DEFINITION. The predicates that statements use: a run without errors (R90), the invariants of the registers, and
the session a state stands in (R16, R28). None of them takes part in a step. -/

namespace Sys2Proof.Machine

/-- No error flag is set (R80, R90: `err = 0`). -/
def noError (r : Regs) : Prop := errLine r = false

/-- What relates the registers to one another in every state a reset leads to. -/
structure RegsInv (r : Regs) : Prop where
  /-- WIDTH is 2, 4 or 8, or 0 (R24). -/
  width_legal : r.width = 0#4 ∨ r.width = 2#4 ∨ r.width = 4#4 ∨ r.width = 8#4
  /-- CFGV equals `WIDTH != 0` (R25). -/
  cfgv_width : r.cfgv = (r.width != 0#4)
  /-- `RESULT[7:WIDTH]` is 0 (R26). -/
  result_range : r.result.toNat < 2 ^ r.width.toNat
  /-- An empty session has the initial MixState (R22, R27). -/
  empty_mix : r.ne = false → r.toMixState = mixStart
  /-- The RESULT of an empty session is 0 (R26, R68). -/
  empty_result : r.ne = false → r.result = 0x00#8
  /-- Unconfigured, nothing has been absorbed or published (R75). -/
  unconfigured : r.cfgv = false → r.ne = false ∧ r.done = false
  /-- With DONE = 1, RESULT is what FIN gives now (R28, R89). -/
  done_current : r.done = true → r.result = finResult r

/-- The invariant of the machine after a reset: the registers' relations, and the bound of R86 and R92 on the busy
condition. -/
structure Inv (s : State) : Prop where
  was_reset : s.wasReset = true
  regs : RegsInv s.toRegs
  busy_bound : s.busy < Config.cmdLatency

/-- The session of `r` is the byte sequence `d` (R16, R28): MIX has been applied once per byte of `d` to the initial
MixState, NE says whether `d` is empty, and with DONE = 1 RESULT is the hash of exactly `d`. -/
structure HoldsSession (r : Regs) (d : List Byte) : Prop where
  mix : r.toMixState = absorbAll mixStart d
  nonempty : r.ne = !d.isEmpty
  current : r.done = true → r.result = hashOf Config.foldOrder r.width d

/-- The session after a command that a configured block executes (R59, R60, R67, R68). -/
def sessionAfter (i : Instr) (d : List Byte) : List Byte :=
  match i with
  | .nop => d
  | .cfg w => if legalWidth w then [] else d
  | .init => []
  | .abs b => d ++ [b]
  | .fin => d

/-- The legal command the coming edge accepts, if any (R18, R54). -/
def acceptedCommand (s : State) : Option Instr :=
  if accepts s then
    match decode (pins s).cmd with
    | .ok i => some i
    | .error _ => none
  else none

/-- The session after one edge: empty after a reset (R83); moved by a command that a configured block, or CFG,
executes; else the same. -/
def sessionAfterEdge (s : State) (d : List Byte) : List Byte :=
  if (pins s).rst then []
  else
    match acceptedCommand s with
    | some (.cfg w) => sessionAfter (.cfg w) d
    | some i => if s.cfgv then sessionAfter i d else d
    | none => d

/-- `rotl32` on natural numbers below `2^32` (R12): the high `n` bits come back at the low end. -/
def natRotl (x n : Nat) : Nat := x * 2 ^ n % 2 ^ 32 + x / 2 ^ (32 - n)

/-- Step 2 of R63 in integer arithmetic. -/
def natMixStep2 (a : Nat) : Nat := a ^^^ natRotl a 7

/-- Step 3 of R63 in integer arithmetic: the product modulo `2^32`. -/
def natMixStep3 (a : Nat) : Nat := a * 0x9E3779B9 % 2 ^ 32

/-- Step 6 of R63 in integer arithmetic. -/
def natMixStep6 (a : Nat) : Nat := a ^^^ (a * 2 ^ 3 % 2 ^ 32)

/-- Step 7 of R63 in integer arithmetic. -/
def natMixStep7 (a : Nat) : Nat := a ^^^ (a / 2 ^ 11)

/-- Step 8 of R63 in integer arithmetic. -/
def natMixStep8 (a : Nat) : Nat := a ^^^ (a * 2 ^ 15 % 2 ^ 32)

/-- Steps 1 to 4 of R63 in integer arithmetic. -/
def natMixHead (a b : Nat) : Nat := natRotl (natMixStep3 (natMixStep2 (a ^^^ b))) 13

/-- The accumulator's part of step 5 with the new lane value `l`, and steps 6 to 8 of R63, in integer arithmetic. -/
def natMixTail (a l : Nat) : Nat := natMixStep8 (natMixStep7 (natMixStep6 (a ^^^ l)))

/-- Everything of two register sets but their error flags agrees: what the hash depends on and what it gives
(R33). -/
structure AgreeButErrors (r q : Regs) : Prop where
  acc : r.acc = q.acc
  lane : r.lane = q.lane
  width : r.width = q.width
  cfgv : r.cfgv = q.cfgv
  result : r.result = q.result
  ne : r.ne = q.ne
  done : r.done = q.done

/-- How many of the 65536 words a property holds of (R54). -/
def countWords (p : CmdWord → Bool) : Nat := (List.range 65536).countP (fun n => p (BitVec.ofNat 16 n))

/-- A word decodes to a command of this mnemonic (R54). -/
def decodesTo (mnemonic : String) (cmd : CmdWord) : Bool :=
  match decode cmd with
  | .ok i => i.row.mnemonic == mnemonic
  | .error _ => false

/-- A word is ILLEGAL (R54). -/
def isIllegal (cmd : CmdWord) : Bool :=
  match decode cmd with
  | .ok _ => false
  | .error _ => true

/-- The error a word raises in a state, by the order of R77. -/
def raisedBy (w : CmdWord) (r : Regs) : Option ErrKind :=
  match decode w with
  | .error _ => some .ill
  | .ok .nop => none
  | .ok (.cfg v) => if legalWidth v then none else some .cfg
  | .ok .init => if r.cfgv then none else some .nocfg
  | .ok (.abs _) => if r.cfgv then none else some .nocfg
  | .ok .fin => if r.cfgv then none else some .nocfg

/-- The error flag of a kind (R30, R76). -/
def flagOf (e : ErrKind) (r : Regs) : Bool :=
  match e with
  | .cfg => r.errCfg
  | .nocfg => r.errNocfg
  | .ill => r.errIll

end Sys2Proof.Machine
end

