-- ==== Sys2Proof/Certificates/Slice0/Obligations.lean ====
section
/-! DEFINITION. The statements for the provers. Each names the rule of spec/ it formalises; those that rest on a
choice of the model name the log entry. -/

open Sys2Proof Sys2Proof.Machine

/-! ### Encoding (spec/30_encoding.md) -/

/-- Decoding and encoding are inverse to one another on all commands and all words that stand for one
(R50 to R54). -/
def Obligations.DecodeAndEncodeAgree : Prop :=
  (∀ i : Instr, i.wf = true → decode (encode i) = .ok i) ∧
  (∀ (cmd : CmdWord) (i : Instr), decode cmd = .ok i → encode i = cmd ∧ i.wf = true)

/-- The opcode map of R52: the five matches and masks, each decisive for its mnemonic with `w` and `b` the low eight
bits; at most one row matches a word; the opcodes `0x5` to `0xF` are illegal. -/
def Obligations.OpcodeMapDecidesEveryWord : Prop :=
  (opcodeTable.map (fun r => (r.mnemonic, r.matchBits, r.maskBits)) =
    [("NOP", 0x0000#16, 0xFFFF#16), ("CFG", 0x1000#16, 0xFF00#16), ("INIT", 0x2000#16, 0xFFFF#16),
     ("ABS", 0x3000#16, 0xFF00#16), ("FIN", 0x4000#16, 0xFFFF#16)]) ∧
  (∀ (cmd : CmdWord) (x : Byte),
    (decode cmd = .ok .nop ↔ cmd &&& 0xFFFF#16 = 0x0000#16) ∧
    (decode cmd = .ok (.cfg x) ↔ cmd &&& 0xFF00#16 = 0x1000#16 ∧ x = cmd.extractLsb' 0 8) ∧
    (decode cmd = .ok .init ↔ cmd &&& 0xFFFF#16 = 0x2000#16) ∧
    (decode cmd = .ok (.abs x) ↔ cmd &&& 0xFF00#16 = 0x3000#16 ∧ x = cmd.extractLsb' 0 8) ∧
    (decode cmd = .ok .fin ↔ cmd &&& 0xFFFF#16 = 0x4000#16)) ∧
  (∀ (cmd : CmdWord) (r q : OpcodeRow), r ∈ opcodeTable → q ∈ opcodeTable → r.covers cmd = true →
    q.covers cmd = true → r = q) ∧
  (∀ cmd : CmdWord, 5 ≤ (cmd.extractLsb' 12 4).toNat → ∃ c, decode cmd = .error c)

/-- R53: a word whose bits 11:8 are not zero, or a NOP, INIT or FIN whose bits 7:0 are not zero, matches no row of the
opcode map and is illegal. -/
def Obligations.MustBeZeroFieldsAreIllegal : Prop :=
  ∀ cmd : CmdWord,
    (cmd.extractLsb' 8 4 ≠ 0#4 ∨
      ((cmd.extractLsb' 12 4 = 0x0#4 ∨ cmd.extractLsb' 12 4 = 0x2#4 ∨ cmd.extractLsb' 12 4 = 0x4#4) ∧
        cmd.extractLsb' 0 8 ≠ 0#8)) →
    (∀ r ∈ opcodeTable, r.covers cmd = false) ∧ ∃ c, decode cmd = .error c

/-- R54: the six outcomes of the decoder, what an ILLEGAL word does, that `CFG w` outside 2, 4, 8 is a legal encoding
that raises ERR_CFG, and how the 65536 words split. -/
def Obligations.DecoderHasSixOutcomes : Prop :=
  (∀ (cmd : CmdWord) (x : Byte),
    (decode cmd = .ok .nop ↔ cmd = 0x0000#16) ∧
    (decode cmd = .ok (.cfg x) ↔ cmd.extractLsb' 8 8 = 0x10#8 ∧ x = cmd.extractLsb' 0 8) ∧
    (decode cmd = .ok .init ↔ cmd = 0x2000#16) ∧
    (decode cmd = .ok (.abs x) ↔ cmd.extractLsb' 8 8 = 0x30#8 ∧ x = cmd.extractLsb' 0 8) ∧
    (decode cmd = .ok .fin ↔ cmd = 0x4000#16)) ∧
  (∀ (cmd : CmdWord) (c : Illegal) (s : State), decode cmd = .error c →
    execWord cmd s = .next { s with errIll := true }) ∧
  (∀ (w : Byte) (s : State), w ≠ 2#8 → w ≠ 4#8 → w ≠ 8#8 →
    execWord (0x1000#16 ||| w.setWidth 16) s = .next { s with errCfg := true }) ∧
  countWords (decodesTo "NOP") = 1 ∧ countWords (decodesTo "CFG") = 256 ∧ countWords (decodesTo "INIT") = 1 ∧
  countWords (decodesTo "ABS") = 256 ∧ countWords (decodesTo "FIN") = 1 ∧ countWords isIllegal = 65021

/-- R55: every word with a reserved opcode raises ERR_ILL and does nothing else, and `0x0000` is the only word that
does nothing in every state. -/
def Obligations.ReservedOpcodesRaiseErrIll : Prop :=
  (∀ (cmd : CmdWord) (s : State), 5 ≤ (cmd.extractLsb' 12 4).toNat →
    (∃ c, decode cmd = .error c) ∧ execWord cmd s = .next { s with errIll := true }) ∧
  (∀ cmd : CmdWord, (∀ s : State, execWord cmd s = .next s) ↔ cmd = 0x0000#16)

/-- Words of 95_test_vectors.md section 2.2 (V-D1 to V-D16), a sanity statement. -/
def Obligations.SampleWordsDecode : Prop :=
  decode 0x0000#16 = .ok .nop ∧ decode 0x1008#16 = .ok (.cfg 8#8) ∧ decode 0x1003#16 = .ok (.cfg 3#8) ∧
  decode 0x2000#16 = .ok .init ∧ decode 0x30FF#16 = .ok (.abs 0xFF#8) ∧ decode 0x3041#16 = .ok (.abs 0x41#8) ∧
  decode 0x4000#16 = .ok .fin ∧
  isIllegal 0x0001#16 = true ∧ isIllegal 0x0100#16 = true ∧ isIllegal 0x1108#16 = true ∧
  isIllegal 0x2001#16 = true ∧ isIllegal 0x3100#16 = true ∧ isIllegal 0x4080#16 = true ∧
  isIllegal 0x5000#16 = true ∧ isIllegal 0x8041#16 = true ∧ isIllegal 0xF000#16 = true ∧ isIllegal 0xFFFF#16 = true

/-- The assembler of R56: each line's word; an operand outside 0..255 is an error that emits no word; the text of a
command in decimal or hexadecimal is read back; a comment changes nothing. The details of the text are the model's
choice (notes/assumptions/12.md). -/
def Obligations.AssemblerFollowsItsTable : Prop :=
  (assemble .nop = some [0x0000#16] ∧ assemble .init = some [0x2000#16] ∧ assemble .fin = some [0x4000#16]) ∧
  (∀ n : Nat, n ≤ 255 →
    assemble (.cfg n) = some [0x1000#16 ||| BitVec.ofNat 16 n] ∧
    assemble (.abs n) = some [0x3000#16 ||| BitVec.ofNat 16 n] ∧
    assembleText (['C', 'F', 'G', ' '] ++ Nat.toDigits 10 n) = some [0x1000#16 ||| BitVec.ofNat 16 n] ∧
    assembleText (['A', 'B', 'S', ' '] ++ Nat.toDigits 10 n) = some [0x3000#16 ||| BitVec.ofNat 16 n]) ∧
  (∀ n : Nat, 255 < n → assemble (.cfg n) = none ∧ assemble (.abs n) = none) ∧
  (∀ i : Instr, assembleText (asmText i) = some [encode i]) ∧
  (∀ text comment : List Char, assembleText (text ++ ';' :: comment) = assembleText text)

/-- The pseudo-instructions of R57: their expansions, and that HASH with no bytes gives RESULT 0 in a configured
block. -/
def Obligations.PseudoInstructionsExpand : Prop :=
  (∀ bs : List Nat, (∀ b ∈ bs, b ≤ 255) →
    assemble (.hash bs) =
      some (0x2000#16 :: (bs.map (fun b => 0x3000#16 ||| BitVec.ofNat 16 b) ++ [0x4000#16])) ∧
    ∀ w : Nat, w ≤ 255 →
      assemble (.hashw w bs) =
        some ((0x1000#16 ||| BitVec.ofNat 16 w) ::
          (bs.map (fun b => 0x3000#16 ||| BitVec.ofNat 16 b) ++ [0x4000#16]))) ∧
  (∀ s : State, s.cfgv = true → ∃ t, execWords [0x2000#16, 0x4000#16] s = .next t ∧ t.result = 0x00#8) ∧
  assembleText ['H', 'A', 'S', 'H', ' ', '0', 'x', '4', '1', ',', ' ', '0', 'x', '4', '1', ',', ' ', '0', 'x', '4',
      '1', ',', ' ', '0', 'x', '4', '1'] =
    some [0x2000#16, 0x3041#16, 0x3041#16, 0x3041#16, 0x3041#16, 0x4000#16]

/-! ### Operators and the functions of the hash (R12, spec/41_absorb_finalize.md section 1) -/

/-- R12: the operators on 32-bit values in integer arithmetic modulo `2^32`, and `rotl32` at the amounts it is used
with, as its formula and as the concatenation `x[31-n:0] ++ x[31:32-n]`. -/
def Obligations.OperatorsWrapModuloTwoToThe32 : Prop :=
  (∀ (a b : Word) (i : Nat),
    (xor32 a b).getLsbD i = (a.getLsbD i ^^ b.getLsbD i) ∧
    (and32 a b).getLsbD i = (a.getLsbD i && b.getLsbD i) ∧
    (or32 a b).getLsbD i = (a.getLsbD i || b.getLsbD i)) ∧
  (∀ a b : Word, (mul32 a b).toNat = a.toNat * b.toNat % 2 ^ 32) ∧
  (∀ (a : Word) (n : Nat),
    (shl32 a n).toNat = a.toNat * 2 ^ n % 2 ^ 32 ∧ (shr32 a n).toNat = a.toNat / 2 ^ n) ∧
  (∀ (x : Word) (n : Nat), n = 5 ∨ n = 7 ∨ n = 13 →
    rotl32 x n = and32 (or32 (shl32 x n) (shr32 x (32 - n))) 0xFFFFFFFF#32 ∧
    (rotl32 x n).toNat = x.toNat % 2 ^ (32 - n) * 2 ^ n + x.toNat / 2 ^ (32 - n))

/-- R63: MIX in integer arithmetic: the accumulator and the selected lane by the eight steps, the other lanes
unchanged. The integer steps are `natMixHead`, `natRotl` and `natMixTail`. -/
def Obligations.MixIsTheEightIntegerSteps : Prop :=
  ∀ (m : MixState) (b : Byte) (i : Fin 4), i.val = b.toNat % 4 →
    ((mix m b).lane.get i).toNat = natRotl ((m.lane.get i).toNat ^^^ natMixHead m.acc.toNat b.toNat) 5 ∧
    (mix m b).acc.toNat =
      natMixTail (natMixHead m.acc.toNat b.toNat)
        (natRotl ((m.lane.get i).toNat ^^^ natMixHead m.acc.toNat b.toNat) 5) ∧
    (∀ j : Fin 4, j ≠ i → (mix m b).lane.get j = m.lane.get j)

/-- R64: the lane index is the low two bits of the byte; MIX writes no other lane; a lane no byte of a session selects
keeps its initial constant. -/
def Obligations.BytesSelectLanes : Prop :=
  (∀ b : Byte, (laneIndex b).val = b.toNat % 4 ∧ (laneIndex b).val = (b.extractLsb' 0 2).toNat) ∧
  (∀ (m : MixState) (b : Byte) (j : Fin 4), j ≠ laneIndex b → (mix m b).lane.get j = m.lane.get j) ∧
  (∀ (d : List Byte) (j : Fin 4), (∀ b ∈ d, laneIndex b ≠ j) →
    (absorbAll mixStart d).lane.get j = mixStart.lane.get j)

/-- The fold of R65 in the ascending order of decision D14, unconfirmed (notes/assumptions/7.md), and the same fold in
the other order. -/
def Obligations.FoldVisitsLanesInOrder : Prop :=
  Config.foldOrder = .ascending ∧
  ∀ (a l0 l1 l2 l3 : Word),
    fold .ascending ⟨a, ⟨l0, l1, l2, l3⟩⟩ =
      rotl32 (xor32 (rotl32 (xor32 (rotl32 (xor32 (rotl32 (xor32 a l0) 7) l1) 7) l2) 7) l3) 7 ∧
    fold .descending ⟨a, ⟨l0, l1, l2, l3⟩⟩ =
      rotl32 (xor32 (rotl32 (xor32 (rotl32 (xor32 (rotl32 (xor32 a l3) 7) l2) 7) l1) 7) l0) 7

/-- R66: TRUNC is `v & mask(w)` with `mask(w) = 2^w - 1`, keeps the low `w` bits, and lies in `[0, 2^w - 1]`. -/
def Obligations.TruncationKeepsLowBits : Prop :=
  ∀ (v : Word) (w : BitVec 4), w = 2#4 ∨ w = 4#4 ∨ w = 8#4 →
    (mask w).toNat = 2 ^ w.toNat - 1 ∧ trunc v w = v &&& mask w ∧
    (trunc v w).toNat = v.toNat % 2 ^ w.toNat ∧ (trunc v w).toNat ≤ 2 ^ w.toNat - 1

/-- The laws of R70 about the steps of MIX: steps 3, 6, 7 and 8 are bijections on 32-bit values, step 2 is not
injective; step 3 keeps the low 32 bits of the product with an odd multiplier. -/
def Obligations.WhichMixStepsAreBijective : Prop :=
  Function.Bijective mixStep3 ∧ Function.Bijective mixStep6 ∧ Function.Bijective mixStep7 ∧
  Function.Bijective mixStep8 ∧
  (mixStep2 0x00000000#32 = 0x00000000#32 ∧ mixStep2 0xFFFFFFFF#32 = 0x00000000#32 ∧
    ¬ Function.Injective mixStep2) ∧
  (∀ a : Word, (mixStep3 a).toNat = a.toNat * 0x9E3779B9 % 2 ^ 32) ∧ 0x9E3779B9 % 2 = 1

/-! ### The commands (spec/40_session.md, spec/41_absorb_finalize.md section 2) -/

/-- R58: NOP is `0x0000` and leaves every state as it is, configured or not, so it changes no hash; the words around it
are illegal. -/
def Obligations.NopLeavesEveryState : Prop :=
  encode .nop = 0x0000#16 ∧ (∀ s : State, exec .nop s = .next s) ∧
  (∀ (s : State) (i : Instr), execAll [.nop, i] s = exec i s) ∧
  (∀ cmd : CmdWord, cmd.extractLsb' 12 4 = 0x0#4 → cmd ≠ 0x0000#16 → ∃ c, decode cmd = .error c)

/-- R59: CFG with a legal width constructs a new engine, with any other it sets ERR_CFG and changes nothing else; its
encoding and its two examples. -/
def Obligations.CfgConstructsEngineOrRaises : Prop :=
  (∀ w : Byte, encode (.cfg w) = 0x1000#16 ||| w.setWidth 16) ∧
  (∀ (w : Byte) (s : State), w = 2#8 ∨ w = 4#8 ∨ w = 8#8 →
    exec (.cfg w) s = .next { s with
      acc := 0x5A5A5A5A#32, lane := ⟨0x12345678#32, 0x9ABCDEF0#32, 0xFEDCBA09#32, 0x87654321#32⟩,
      width := w.setWidth 4, cfgv := true, ne := false, done := false, result := 0x00#8 }) ∧
  (∀ (w : Byte) (s : State), w ≠ 2#8 → w ≠ 4#8 → w ≠ 8#8 →
    exec (.cfg w) s = .next { s with errCfg := true }) ∧
  (∃ t, exec (.cfg 8#8) State.reset = .next t ∧ t.width = 8#4 ∧ t.cfgv = true ∧ t.ne = false ∧ t.done = false ∧
    t.result = 0x00#8 ∧ statusWord t.toRegs = 0x0801#16) ∧
  (∃ t, exec (.cfg 3#8) State.reset = .next t ∧ statusWord t.toRegs = 0x0008#16)

/-- R60: INIT starts a new computation in a configured block and keeps WIDTH and CFGV, otherwise it sets ERR_NOCFG and
changes nothing else; INIT after INIT or after a valid CFG changes nothing; its encoding and its example. -/
def Obligations.InitStartsComputationOrRaises : Prop :=
  encode .init = 0x2000#16 ∧
  (∀ s : State, s.cfgv = true →
    exec .init s = .next { s with
      acc := 0x5A5A5A5A#32, lane := ⟨0x12345678#32, 0x9ABCDEF0#32, 0xFEDCBA09#32, 0x87654321#32⟩,
      ne := false, done := false, result := 0x00#8 }) ∧
  (∀ s : State, s.cfgv = false → exec .init s = .next { s with errNocfg := true }) ∧
  (∀ s t : State, exec .init s = .next t → exec .init t = .next t) ∧
  (∀ (w : Byte) (s t : State), w = 2#8 ∨ w = 4#8 ∨ w = 8#8 → exec (.cfg w) s = .next t → exec .init t = .next t) ∧
  (∀ s : State, s.cfgv = true → s.width = 4#4 → noError s.toRegs →
    ∃ t, exec .init s = .next t ∧ statusWord t.toRegs = 0x0401#16)

/-- R67: ABS in a configured block applies MIX, sets NE, clears DONE and keeps RESULT; otherwise it sets ERR_NOCFG and
changes nothing else. It completes for every byte, any number of times, also after FIN; its encoding and its
example. -/
def Obligations.AbsMixesOneByteOrRaises : Prop :=
  (∀ b : Byte, encode (.abs b) = 0x3000#16 ||| b.setWidth 16) ∧
  (∀ (b : Byte) (s : State), s.cfgv = true →
    exec (.abs b) s = .next { s with toMixState := mix s.toMixState b, ne := true, done := false }) ∧
  (∀ (b : Byte) (s : State), s.cfgv = false → exec (.abs b) s = .next { s with errNocfg := true }) ∧
  mix mixStart 0x00#8 ≠ mixStart ∧
  (∀ (bs : List Byte) (s : State), s.cfgv = true →
    ∃ t, execAll (bs.map .abs) s = .next t ∧ t.toMixState = absorbAll s.toMixState bs) ∧
  (∀ (b : Byte) (d : List Byte) (s : State), s.cfgv = true → HoldsSession s.toRegs d →
    ∃ t, execAll [.fin, .abs b, .fin] s = .next t ∧ t.result = hashOf .ascending s.width (d ++ [b])) ∧
  mix mixStart 0x41#8 = ⟨0x9F2D8657#32, ⟨0x12345678#32, 0xF5807926#32, 0xFEDCBA09#32, 0x87654321#32⟩⟩

/-- R68: FIN in a configured block publishes 0 for an empty session and else the truncated ascending fold, sets DONE
and writes nothing else; otherwise it sets ERR_NOCFG and changes nothing else. FIN twice gives the same RESULT;
`RESULT[7:WIDTH]` is 0; its encoding and its examples. -/
def Obligations.FinPublishesHashOrRaises : Prop :=
  encode .fin = 0x4000#16 ∧
  (∀ s : State, s.cfgv = true →
    exec .fin s = .next { s with
      result := if s.ne then (trunc (fold .ascending s.toMixState) s.width).setWidth 8 else 0x00#8,
      done := true }) ∧
  (∀ s : State, s.cfgv = false → exec .fin s = .next { s with errNocfg := true }) ∧
  (∀ s t u : State, exec .fin s = .next t → exec .fin t = .next u → u.result = t.result) ∧
  (∀ s t : State, s.cfgv = true → s.width = 2#4 ∨ s.width = 4#4 ∨ s.width = 8#4 → exec .fin s = .next t →
    t.result.toNat < 2 ^ s.width.toNat) ∧
  (fold .ascending mixStart = 0x66B6582D#32 ∧ trunc 0x66B6582D#32 2#4 = 1#32 ∧ trunc 0x66B6582D#32 4#4 = 13#32 ∧
    trunc 0x66B6582D#32 8#4 = 45#32) ∧
  (∀ w : BitVec 4, w = 2#4 ∨ w = 4#4 ∨ w = 8#4 → hashOf .ascending w [0x41#8, 0x42#8] = 0x00#8) ∧
  (fold .ascending (absorbAll mixStart [0x41#8, 0x41#8, 0x41#8, 0x41#8]) = 0x79042719#32 ∧
    hashOf .ascending 8#4 [0x41#8, 0x41#8, 0x41#8, 0x41#8] = 0x19#8)

/-! ### Which registers are written, by which edges (spec/10_state.md sections 3 to 5) -/

/-- What an edge does to ACC and to the lanes (R20, R21, R23): reset, INIT and a valid CFG give the initial constants,
ABS mixes and writes at most the lane its byte selects, and nothing else writes any of them. -/
def Obligations.MixStateWriters : Prop :=
  ∀ s t : State, step s = .next t →
    ((pins s).rst = true → t.toMixState = mixStart) ∧
    (acceptedCommand s = some .init → s.cfgv = true → t.toMixState = mixStart) ∧
    (∀ w, acceptedCommand s = some (.cfg w) → w = 2#8 ∨ w = 4#8 ∨ w = 8#8 → t.toMixState = mixStart) ∧
    (∀ b, acceptedCommand s = some (.abs b) → s.cfgv = true →
      t.toMixState = mix s.toMixState b ∧ ∀ j, j ≠ laneIndex b → t.lane.get j = s.lane.get j) ∧
    (t.toMixState ≠ s.toMixState →
      (pins s).rst = true ∨
      (acceptedCommand s = some .init ∧ s.cfgv = true) ∨
      (∃ w, acceptedCommand s = some (.cfg w) ∧ (w = 2#8 ∨ w = 4#8 ∨ w = 8#8)) ∨
      (∃ b, acceptedCommand s = some (.abs b) ∧ s.cfgv = true))

/-- R24: only a valid CFG writes WIDTH, with its operand, and re-initialises the MixState; reset writes 0; WIDTH is 0
exactly when the block is unconfigured, else 2, 4 or 8. -/
def Obligations.WidthWriters : Prop :=
  ∀ s t : State, step s = .next t →
    ((pins s).rst = true → t.width = 0#4) ∧
    (∀ w, acceptedCommand s = some (.cfg w) → w = 2#8 ∨ w = 4#8 ∨ w = 8#8 →
      t.width = w.setWidth 4 ∧ t.toMixState = mixStart) ∧
    (t.width ≠ s.width →
      (pins s).rst = true ∨ ∃ w, acceptedCommand s = some (.cfg w) ∧ (w = 2#8 ∨ w = 4#8 ∨ w = 8#8)) ∧
    (Inv s → (t.width = 0#4 ∨ t.width = 2#4 ∨ t.width = 4#4 ∨ t.width = 8#4) ∧ (t.width = 0#4 ↔ t.cfgv = false))

/-- R25: a valid CFG sets CFGV, reset clears it, nothing else writes it, and it equals `WIDTH != 0`; while it is 0,
INIT, ABS and FIN raise ERR_NOCFG. -/
def Obligations.CfgvWriters : Prop :=
  (∀ s t : State, step s = .next t →
    ((pins s).rst = true → t.cfgv = false) ∧
    (∀ w, acceptedCommand s = some (.cfg w) → w = 2#8 ∨ w = 4#8 ∨ w = 8#8 → t.cfgv = true) ∧
    (t.cfgv ≠ s.cfgv →
      (pins s).rst = true ∨ ∃ w, acceptedCommand s = some (.cfg w) ∧ (w = 2#8 ∨ w = 4#8 ∨ w = 8#8)) ∧
    (Inv s → t.cfgv = (t.width != 0#4))) ∧
  (∀ (s : State) (b : Byte), s.cfgv = false →
    exec .init s = .next { s with errNocfg := true } ∧
    exec (.abs b) s = .next { s with errNocfg := true } ∧
    exec .fin s = .next { s with errNocfg := true })

/-- R26: FIN writes RESULT with the masked hash, INIT, a valid CFG and reset clear it, nothing else writes it; its bits
from WIDTH up are 0. -/
def Obligations.ResultWriters : Prop :=
  ∀ s t : State, step s = .next t →
    ((pins s).rst = true → t.result = 0x00#8) ∧
    (acceptedCommand s = some .init → s.cfgv = true → t.result = 0x00#8) ∧
    (∀ w, acceptedCommand s = some (.cfg w) → w = 2#8 ∨ w = 4#8 ∨ w = 8#8 → t.result = 0x00#8) ∧
    (acceptedCommand s = some .fin → s.cfgv = true →
      t.result = if s.ne then (trunc (fold .ascending s.toMixState) s.width).setWidth 8 else 0x00#8) ∧
    (t.result ≠ s.result →
      (pins s).rst = true ∨ (acceptedCommand s = some .init ∧ s.cfgv = true) ∨
      (∃ w, acceptedCommand s = some (.cfg w) ∧ (w = 2#8 ∨ w = 4#8 ∨ w = 8#8)) ∨
      (acceptedCommand s = some .fin ∧ s.cfgv = true)) ∧
    (Inv s → t.result.toNat < 2 ^ t.width.toNat)

/-- R27: ABS sets NE, INIT, a valid CFG and reset clear it, nothing else writes it; FIN with NE = 0 gives RESULT 0
without the fold. -/
def Obligations.NeWriters : Prop :=
  ∀ s t : State, step s = .next t →
    ((pins s).rst = true → t.ne = false) ∧
    (acceptedCommand s = some .init → s.cfgv = true → t.ne = false) ∧
    (∀ w, acceptedCommand s = some (.cfg w) → w = 2#8 ∨ w = 4#8 ∨ w = 8#8 → t.ne = false) ∧
    (∀ b, acceptedCommand s = some (.abs b) → s.cfgv = true → t.ne = true) ∧
    (t.ne ≠ s.ne →
      (pins s).rst = true ∨ (acceptedCommand s = some .init ∧ s.cfgv = true) ∨
      (∃ w, acceptedCommand s = some (.cfg w) ∧ (w = 2#8 ∨ w = 4#8 ∨ w = 8#8)) ∨
      (∃ b, acceptedCommand s = some (.abs b) ∧ s.cfgv = true)) ∧
    (acceptedCommand s = some .fin → s.cfgv = true → s.ne = false → t.result = 0x00#8)

/-- R28: FIN sets DONE, ABS, INIT, a valid CFG and reset clear it, NOP and commands that raise an error do not change
it; DONE = 1 means that RESULT is what FIN gives of the MixState now, and that it is the hash of exactly the bytes
absorbed since the last reset, INIT or valid CFG. -/
def Obligations.DoneWriters : Prop :=
  ∀ s t : State, step s = .next t →
    ((pins s).rst = true → t.done = false) ∧
    (acceptedCommand s = some .init → s.cfgv = true → t.done = false) ∧
    (∀ w, acceptedCommand s = some (.cfg w) → w = 2#8 ∨ w = 4#8 ∨ w = 8#8 → t.done = false) ∧
    (∀ b, acceptedCommand s = some (.abs b) → s.cfgv = true → t.done = false) ∧
    (acceptedCommand s = some .fin → s.cfgv = true → t.done = true) ∧
    ((pins s).rst = false → raisedBy (pins s).cmd s.toRegs ≠ none ∨ acceptedCommand s = some .nop →
      t.done = s.done) ∧
    (Inv s → t.done = true → t.result = finResult t.toRegs) ∧
    (∀ d, HoldsSession s.toRegs d → t.done = true → t.result = hashOf .ascending t.width (sessionAfterEdge s d))

/-- R29: the STATUS word bit by bit; its reserved bits read 0, and after reset all of it does. -/
def Obligations.StatusWordLayout : Prop :=
  (∀ r : Regs,
    (statusWord r).getLsbD 0 = r.cfgv ∧ (statusWord r).getLsbD 1 = r.ne ∧ (statusWord r).getLsbD 2 = r.done ∧
    (statusWord r).getLsbD 3 = r.errCfg ∧ (statusWord r).getLsbD 4 = r.errNocfg ∧
    (statusWord r).getLsbD 5 = r.errIll ∧ (statusWord r).extractLsb' 6 2 = 0#2 ∧
    (statusWord r).extractLsb' 8 4 = r.width ∧ (statusWord r).extractLsb' 12 4 = 0#4) ∧
  statusWord State.reset.toRegs = 0x0000#16

/-- R33: two configured blocks of one width, whatever they did before, agree after INIT and any commands in
everything but their error flags; so do any two blocks after one valid CFG and any commands. -/
def Obligations.InitForgetsEverySession : Prop :=
  (∀ (is : List Instr) (s q : State), s.cfgv = true → q.cfgv = true → s.width = q.width →
    ∃ t u, execAll (.init :: is) s = .next t ∧ execAll (.init :: is) q = .next u ∧
      AgreeButErrors t.toRegs u.toRegs) ∧
  (∀ (is : List Instr) (w : Byte) (s q : State), w = 2#8 ∨ w = 4#8 ∨ w = 8#8 →
    ∃ t u, execAll (.cfg w :: is) s = .next t ∧ execAll (.cfg w :: is) q = .next u ∧
      AgreeButErrors t.toRegs u.toRegs)

/-- R19: whenever the outputs may be sampled, none of them depends on the MixState. -/
def Obligations.MixStateHasNoPort : Prop :=
  ∀ (s : State) (m : MixState), outputsValid s = true →
    cmdReady { s with toMixState := m } = cmdReady s ∧ statusPort { s with toMixState := m } = statusPort s ∧
    resultPort { s with toMixState := m } = resultPort s ∧ errPort { s with toMixState := m } = errPort s

/-! ### Errors (spec/60_exceptions.md) -/

/-- R72: a word that raises an error sets its flag to 1 and makes no other change, and execution goes on. -/
def Obligations.ErrorSetsOneFlagOnly : Prop :=
  ∀ (w : CmdWord) (s : State) (e : ErrKind), raisedBy w s.toRegs = some e →
    ∃ t, execWord w s = .next t ∧ flagOf e t.toRegs = true ∧
      (∀ e', e' ≠ e → flagOf e' t.toRegs = flagOf e' s.toRegs) ∧
      t = { s with errCfg := t.errCfg, errNocfg := t.errNocfg, errIll := t.errIll } ∧
      ∀ v, ∃ u, execWord v t = .next u

/-- R77 with the causes of R76: the checks in their order, each raising its own error and no other; a word that passes
them all leaves the three flags as they are; the two examples. -/
def Obligations.ErrorCausesInPriorityOrder : Prop :=
  (∀ (w : CmdWord) (s : State),
    ((∃ c, decode w = .error c) → execWord w s = .next { s with errIll := true }) ∧
    (∀ v, decode w = .ok (.cfg v) → v ≠ 2#8 → v ≠ 4#8 → v ≠ 8#8 → execWord w s = .next { s with errCfg := true }) ∧
    (decode w = .ok .init ∨ (∃ b, decode w = .ok (.abs b)) ∨ decode w = .ok .fin → s.cfgv = false →
      execWord w s = .next { s with errNocfg := true }) ∧
    (∀ t, execWord w s = .next t →
      (t.errIll ≠ s.errIll → ∃ c, decode w = .error c) ∧
      (t.errCfg ≠ s.errCfg → ∃ v, decode w = .ok (.cfg v) ∧ v ≠ 2#8 ∧ v ≠ 4#8 ∧ v ≠ 8#8) ∧
      (t.errNocfg ≠ s.errNocfg →
        (decode w = .ok .init ∨ (∃ b, decode w = .ok (.abs b)) ∨ decode w = .ok .fin) ∧ s.cfgv = false))) ∧
  (∃ t, execWord 0x5000#16 State.reset = .next t ∧ t.errIll = true ∧ t.errNocfg = false) ∧
  (∃ t, execWord 0x2001#16 State.reset = .next t ∧ t.errIll = true ∧ t.errNocfg = false)

/-- R78: `err`, when it may be sampled, is the OR of the three flags, and falls to 0 only on reset. -/
def Obligations.ErrLineIsOrOfFlags : Prop :=
  (∀ s : State, s.wasReset = true → cmdReady s = true → errPort s = (s.errCfg || s.errNocfg || s.errIll)) ∧
  (∀ s t : State, step s = .next t → errLine s.toRegs = true → errLine t.toRegs = false → (pins s).rst = true)

/-- R80: only reset clears the error flags; no command does. -/
def Obligations.OnlyResetClearsErrors : Prop :=
  (∀ (s t : State) (e : ErrKind), step s = .next t →
    ((pins s).rst = true → flagOf e t.toRegs = false) ∧
    ((pins s).rst = false → flagOf e s.toRegs = true → flagOf e t.toRegs = true)) ∧
  (∀ (i : Instr) (s t : State) (e : ErrKind), exec i s = .next t → flagOf e s.toRegs = true →
    flagOf e t.toRegs = true)

/-- R90: if `err` is 0 after a sequence of words, none of them raised an error; if it is 1, one of them raised an
error or a flag was set before. -/
def Obligations.ErrAtTheEndCoversTheSequence : Prop :=
  ∀ (ws : List CmdWord) (s : State), ∃ t, execWords ws s = .next t ∧
    (noError t.toRegs → ∀ us w vs, ws = us ++ w :: vs →
      ∃ u, execWords us s = .next u ∧ raisedBy w u.toRegs = none) ∧
    (¬ noError t.toRegs → ¬ noError s.toRegs ∨ ∃ us w vs u, ws = us ++ w :: vs ∧
      execWords us s = .next u ∧ raisedBy w u.toRegs ≠ none)

/-! ### Reset, handshake and outputs (spec/10_state.md sections 2 and 8, spec/70_reset_and_hazards.md) -/

/-- R35: the state after reset. -/
def Obligations.ResetValues : Prop :=
  State.reset.acc = 0x5A5A5A5A#32 ∧
  State.reset.lane = ⟨0x12345678#32, 0x9ABCDEF0#32, 0xFEDCBA09#32, 0x87654321#32⟩ ∧
  State.reset.width = 0#4 ∧ State.reset.cfgv = false ∧ State.reset.result = 0x00#8 ∧ State.reset.ne = false ∧
  State.reset.done = false ∧ State.reset.errCfg = false ∧ State.reset.errNocfg = false ∧
  State.reset.errIll = false ∧ State.reset.busy = 0

/-- R83: at every edge with `rst = 1`, from every state, busy or not, configured or not, the registers take the values
of R35 and no command is accepted; `cmd_ready` is 0 while `rst` is 1; one edge is enough, and the next edge with
`rst = 0` accepts a word offered then. -/
def Obligations.ResetEdgeResetsEverything : Prop :=
  ∀ s : State, (pins s).rst = true →
    cmdReady s = false ∧ accepts s = false ∧
    ∃ t, step s = .next t ∧ t.toRegs = State.reset.toRegs ∧ t.busy = 0 ∧ t.wasReset = true ∧
      t.inputs = s.inputs.tail ∧ ((pins t).rst = false → (pins t).cmdValid = true → accepts t = true)

/-- R84 and the table of 93_implementation_defined.md: before the first reset a command is refused and the outputs are
unspecified. The refusal is the model's choice among those the table allows (notes/assumptions/3.md). That an edge
without `rst` and without a command keeps the registers is the model's own choice too: the spec does not say it, R84
leaves every register any value (notes/assumptions/3.md). So is the form of the free outputs, an opaque constant of
the state and the counter `draws` (notes/assumptions/5.md). -/
def Obligations.NothingRunsBeforeTheFirstReset : Prop :=
  ∀ s : State, s.wasReset = false →
    ((pins s).rst = false → (pins s).cmdValid = true → step s = .refused .commandBeforeReset) ∧
    ((pins s).rst = false → (pins s).cmdValid = false →
      ∃ t, step s = .next t ∧ t.wasReset = false ∧ t.toRegs = s.toRegs) ∧
    statusPort s = Config.unspecifiedStatus s s.draws ∧ resultPort s = Config.unspecifiedResult s s.draws ∧
    errPort s = Config.unspecifiedErr s s.draws

/-- R18: a word is accepted at an edge exactly when `rst = 0`, `cmd_valid = 1` and `cmd_ready = 1`; the accepted word is
executed once, by that edge; a word offered while `cmd_ready = 0` has no effect on the registers. -/
def Obligations.AcceptanceHandshake : Prop :=
  ∀ s : State, s.wasReset = true →
    (accepts s = true ↔ (pins s).rst = false ∧ (pins s).cmdValid = true ∧ cmdReady s = true) ∧
    (accepts s = true →
      ∃ t u, execWord (pins s).cmd s = .next t ∧ step s = .next u ∧ u.toRegs = t.toRegs ∧
        u.inputs = s.inputs.tail) ∧
    ((pins s).rst = false → cmdReady s = false → ∃ u, step s = .next u ∧ u.toRegs = s.toRegs ∧
      u.inputs = s.inputs.tail)

/-- The bound of R86 and R92: an accepted command leaves the block busy for fewer than CMD_LATENCY edges; through them,
while `rst = 0`, `cmd_ready` stays 0 and the registers stay as they are, and then `cmd_ready` returns to 1. -/
def Obligations.ReadyReturnsWithinLatency : Prop :=
  ∀ s t : State, accepts s = true → step s = .next t →
    t.busy + 1 ≤ Config.cmdLatency ∧
    ((∀ p ∈ t.inputs.take t.busy, p.rst = false) →
      (∀ k u, k < t.busy → edges k t = .next u → cmdReady u = false ∧ u.toRegs = t.toRegs) ∧
      ∃ u, edges t.busy t = .next u ∧ u.toRegs = t.toRegs ∧ u.inputs = t.inputs.drop t.busy ∧
        ((pins u).rst = false → cmdReady u = true))

/-- R87: the outputs show the state after the last accepted command while `cmd_ready = 1` and `rst = 0`, and a free
value while `cmd_ready = 0`. -/
def Obligations.OutputsValidOnlyWhenReady : Prop :=
  ∀ s : State, s.wasReset = true →
    (cmdReady s = true → (pins s).rst = false → statusPort s = statusWord s.toRegs ∧ resultPort s = s.result ∧
      errPort s = errLine s.toRegs) ∧
    (cmdReady s = false → statusPort s = Config.unspecifiedStatus s s.draws ∧
      resultPort s = Config.unspecifiedResult s s.draws ∧ errPort s = Config.unspecifiedErr s s.draws)

/-- R44 with the host's duty of R86: when the host holds each word until it is accepted, then after some edges, however
long each command stays busy, the registers are those of `step(cn, … step(c1, s0))`. -/
def Obligations.HeldWordsTakeEffectInOrder : Prop :=
  ∀ (ws : List CmdWord) (s : State) (rest : List Pins), s.wasReset = true →
    s.inputs = schedule ws s.busy s.stalls ++ rest →
    ∃ n t u, edges n s = .next t ∧ execWords ws s = .next u ∧ t.toRegs = u.toRegs ∧ t.inputs = rest

/-- R44 for any host: whatever the pins show without `rst`, the registers are those of a sequence of words, each of
which the host offered, in the order it offered them. -/
def Obligations.OnlyOfferedWordsTakeEffect : Prop :=
  ∀ (n : Nat) (s : State), s.wasReset = true → (∀ p ∈ s.inputs.take n, p.rst = false) →
    ∃ t ws u, edges n s = .next t ∧
      ws.Sublist (((s.inputs.take n).filter (fun p => p.cmdValid)).map (fun p => p.cmd)) ∧
      execWords ws s = .next u ∧ t.toRegs = u.toRegs

/-! ### The step and its invariants -/

/-- R15 and R45: the edge that accepts a word which decodes to `i` is `exec i`, with the edge's bookkeeping around it:
the pins move on, the block is busy for the drawn number of edges, the counter of free values advances. A word that
decodes to nothing sets ERR_ILL instead (R74). -/
def Obligations.StepRunsTheDecodedCommand : Prop :=
  ∀ s : State, accepts s = true →
    (∀ i, decode (pins s).cmd = .ok i →
      step s = andThen (exec i s) (fun t => .next { t with
        busy := stallOf t.stalls, inputs := t.inputs.tail, stalls := t.stalls.tail, draws := t.draws + 1 })) ∧
    (∀ c, decode (pins s).cmd = .error c →
      step s = .next { s with
        errIll := true, busy := stallOf s.stalls, inputs := s.inputs.tail, stalls := s.stalls.tail,
        draws := s.draws + 1 })

/-- Every command answers a next state in every state, and so does every edge but one that offers a word before the
first reset (R72, R84). -/
def Obligations.OnlyUnresetBlocksStop : Prop :=
  (∀ (i : Instr) (s : State), ∃ t, exec i s = .next t) ∧
  (∀ s : State, (∃ t, step s = .next t) ∨
    (step s = .refused .commandBeforeReset ∧ s.wasReset = false ∧ (pins s).rst = false ∧ (pins s).cmdValid = true))

/-- The state after reset meets the invariant (R24 to R28, R35). -/
def Obligations.ResetMeetsInvariant : Prop := Inv State.reset

/-- An edge with `rst = 1` leads from every state whatever, power-on states among them, to one that meets the
invariant (R83, R84). -/
def Obligations.ResetEdgeEstablishesInvariant : Prop :=
  ∀ s : State, (pins s).rst = true → ∃ t, step s = .next t ∧ Inv t

/-- Every edge keeps the invariant: WIDTH is legal, CFGV equals `WIDTH != 0`, RESULT fits its width, an empty session
has the initial MixState and RESULT 0, DONE = 1 means RESULT is current, and the block is busy for fewer than
CMD_LATENCY edges (R24 to R28, R86, R89). -/
def Obligations.EveryEdgeKeepsInvariant : Prop := ∀ s t : State, Inv s → step s = .next t → Inv t

/-- Every edge moves the session as R59, R60, R67, R68 and R83 say: the MixState, NE and a current RESULT stay those of
the byte sequence absorbed since the last reset, INIT or valid CFG (R28). -/
def Obligations.EveryEdgeTracksTheSession : Prop :=
  ∀ (s t : State) (d : List Byte), HoldsSession s.toRegs d → step s = .next t →
    HoldsSession t.toRegs (sessionAfterEdge s d)

/-- What a host reads while DONE = 1 at a block that may be sampled: the hash of exactly the session's bytes, and NE
tells an empty session apart (R28, R89). -/
def Obligations.DoneResultIsTheSessionHash : Prop :=
  ∀ (s : State) (d : List Byte), HoldsSession s.toRegs d → outputsValid s = true →
    (statusPort s).getLsbD 2 = true →
    resultPort s = hashOf .ascending ((statusPort s).extractLsb' 8 4) d ∧
      (statusPort s).getLsbD 1 = !d.isEmpty

/-! ### The hash function (spec/41_absorb_finalize.md section 3) -/

/-- R69: from any configured state INIT, ABS of each byte, FIN, with NOPs anywhere in between, leave RESULT the hash of
the bytes at the block's width and DONE = 1; from any state so do CFG with a legal width, the ABS commands and FIN, at
that width. -/
def Obligations.SessionsComputeTheHash : Prop :=
  (∀ (d : List Byte) (s : State) (is : List Instr), s.cfgv = true →
    is.filter (fun i => i != .nop) = .init :: (d.map .abs ++ [.fin]) →
    ∃ t, execAll is s = .next t ∧ t.result = hashOf .ascending s.width d ∧ t.done = true ∧ t.width = s.width) ∧
  (∀ (w : Byte) (d : List Byte) (s : State) (is : List Instr), w = 2#8 ∨ w = 4#8 ∨ w = 8#8 →
    is.filter (fun i => i != .nop) = .cfg w :: (d.map .abs ++ [.fin]) →
    ∃ t, execAll is s = .next t ∧ t.result = hashOf .ascending (w.setWidth 4) d ∧ t.done = true ∧
      t.width = w.setWidth 4)

/-- The range and the empty rule of R71, in either fold order (D14). -/
def Obligations.HashRangeAndEmptyInput : Prop :=
  ∀ (o : FoldOrder) (w : BitVec 4) (d : List Byte), w = 2#4 ∨ w = 4#4 ∨ w = 8#4 →
    hashOf o w [] = 0x00#8 ∧ (hashOf o w d).toNat ≤ 2 ^ w.toNat - 1

/-- R88: bytes absorbed without INIT continue the previous session: the RESULT is the hash of its bytes followed by the
new ones. -/
def Obligations.OmittingInitContinuesTheSession : Prop :=
  ∀ (s : State) (d e : List Byte), s.cfgv = true → HoldsSession s.toRegs d →
    ∃ t, execAll (e.map .abs ++ [.fin]) s = .next t ∧ t.result = hashOf .ascending s.width (d ++ e) ∧
      HoldsSession t.toRegs (d ++ e)

/-- The whole way of R85, seen at the ports (R19): from any state, a power-on state among them, one edge with
`rst = 1`, then the words of CFG w, ABS of each byte and FIN, each held until it is accepted, lead to an edge where
`cmd_ready` is 1, `result` is the hash, DONE and CFGV read 1, NE tells whether there were bytes, and `err` is 0. -/
def Obligations.BootThenHashAtThePorts : Prop :=
  ∀ (s : State) (p : Pins) (w : Byte) (d : List Byte), w = 2#8 ∨ w = 4#8 ∨ w = 8#8 → p.rst = true →
    s.inputs = p :: schedule ((expandHashw w d).map encode) 0 s.stalls →
    ∃ n t, edges n s = .next t ∧ cmdReady t = true ∧
      resultPort t = hashOf .ascending (w.setWidth 4) d ∧ errPort t = false ∧
      (statusPort t).getLsbD 0 = true ∧ (statusPort t).getLsbD 1 = !d.isEmpty ∧ (statusPort t).getLsbD 2 = true ∧
      (statusPort t).extractLsb' 8 4 = w.setWidth 4

/-- Vectors V-F4, V-F6, V-F7, V-F10 and V-F15 of 95_test_vectors.md, a sanity statement: derived there by hand, on the unaudited
literals and on a fold order (notes/assumptions/7.md, 8.md). -/
def Obligations.SampleHashes : Prop :=
  hashOf .ascending 8#4 [0x41#8, 0x41#8, 0x41#8, 0x41#8] = 0x19#8 ∧
  hashOf .ascending 8#4 [0x41#8, 0x42#8] = 0x00#8 ∧ hashOf .ascending 8#4 [0x42#8, 0x41#8] = 0x0B#8 ∧
  hashOf .ascending 4#4 [0x00#8, 0x01#8, 0x02#8, 0x03#8, 0x04#8, 0x05#8, 0x06#8, 0x07#8] = 0x09#8 ∧
  hashOf .descending 8#4 [0x41#8, 0x41#8, 0x41#8, 0x41#8] = 0x5E#8

/-! ### The host-side renderings (spec/00_scope.md R8) -/

/-- R8 and S9: the binary rendering has `width` digits, the hexadecimal one `ceil(width/4)`, that is 1, 1 and 2, in
either case of the digits (D26); reading each back gives the value. -/
def Obligations.RenderingsReadBack : Prop :=
  ∀ (w : Nat) (v : Byte) (c : HexCase), w = 2 ∨ w = 4 ∨ w = 8 → v.toNat < 2 ^ w →
    (binString w v).length = w ∧ parseNumber 2 (binString w v) = some v.toNat ∧
    (∀ i, i < w → (binString w v)[i]? = some (bitChar (v.getLsbD (w - 1 - i)))) ∧
    (hexString c w v).length = (if w = 8 then 2 else 1) ∧ parseNumber 16 (hexString c w v) = some v.toNat
end

