-- ==== Sys2Proof/Laws/State.lean ====
section
/-! SUPPORT. Each update of the state, field by field: what it writes and what it keeps. -/

namespace Sys2Proof.Machine

/-! ### raise -/

@[simp] theorem raise_mixState (e : ErrKind) (s : State) : (raise e s).toMixState = s.toMixState := by cases e <;> rfl
@[simp] theorem raise_width (e : ErrKind) (s : State) : (raise e s).width = s.width := by cases e <;> rfl
@[simp] theorem raise_cfgv (e : ErrKind) (s : State) : (raise e s).cfgv = s.cfgv := by cases e <;> rfl
@[simp] theorem raise_result (e : ErrKind) (s : State) : (raise e s).result = s.result := by cases e <;> rfl
@[simp] theorem raise_ne (e : ErrKind) (s : State) : (raise e s).ne = s.ne := by cases e <;> rfl
@[simp] theorem raise_done (e : ErrKind) (s : State) : (raise e s).done = s.done := by cases e <;> rfl
@[simp] theorem raise_busy (e : ErrKind) (s : State) : (raise e s).busy = s.busy := by cases e <;> rfl
@[simp] theorem raise_wasReset (e : ErrKind) (s : State) : (raise e s).wasReset = s.wasReset := by cases e <;> rfl
@[simp] theorem raise_inputs (e : ErrKind) (s : State) : (raise e s).inputs = s.inputs := by cases e <;> rfl
@[simp] theorem raise_stalls (e : ErrKind) (s : State) : (raise e s).stalls = s.stalls := by cases e <;> rfl
@[simp] theorem raise_draws (e : ErrKind) (s : State) : (raise e s).draws = s.draws := by cases e <;> rfl

/-- The three error flags after a raise: its own is set, the others are kept. -/
theorem raise_flags (e : ErrKind) (s : State) :
    (raise e s).errCfg = (s.errCfg || e == .cfg) ∧ (raise e s).errNocfg = (s.errNocfg || e == .nocfg) ∧
      (raise e s).errIll = (s.errIll || e == .ill) := by
  cases e <;> simp [raise]

/-! ### startSession -/

@[simp] theorem startSession_mixState (s : State) : (startSession s).toMixState = mixStart := rfl
@[simp] theorem startSession_width (s : State) : (startSession s).width = s.width := rfl
@[simp] theorem startSession_cfgv (s : State) : (startSession s).cfgv = s.cfgv := rfl
@[simp] theorem startSession_result (s : State) : (startSession s).result = 0x00#8 := rfl
@[simp] theorem startSession_ne (s : State) : (startSession s).ne = false := rfl
@[simp] theorem startSession_done (s : State) : (startSession s).done = false := rfl
@[simp] theorem startSession_errCfg (s : State) : (startSession s).errCfg = s.errCfg := rfl
@[simp] theorem startSession_errNocfg (s : State) : (startSession s).errNocfg = s.errNocfg := rfl
@[simp] theorem startSession_errIll (s : State) : (startSession s).errIll = s.errIll := rfl
@[simp] theorem startSession_busy (s : State) : (startSession s).busy = s.busy := rfl
@[simp] theorem startSession_wasReset (s : State) : (startSession s).wasReset = s.wasReset := rfl
@[simp] theorem startSession_inputs (s : State) : (startSession s).inputs = s.inputs := rfl
@[simp] theorem startSession_stalls (s : State) : (startSession s).stalls = s.stalls := rfl
@[simp] theorem startSession_draws (s : State) : (startSession s).draws = s.draws := rfl

/-! ### configure -/

@[simp] theorem configure_mixState (w : Byte) (s : State) : (configure w s).toMixState = mixStart := rfl
@[simp] theorem configure_width (w : Byte) (s : State) : (configure w s).width = widthField w := rfl
@[simp] theorem configure_cfgv (w : Byte) (s : State) : (configure w s).cfgv = true := rfl
@[simp] theorem configure_result (w : Byte) (s : State) : (configure w s).result = 0x00#8 := rfl
@[simp] theorem configure_ne (w : Byte) (s : State) : (configure w s).ne = false := rfl
@[simp] theorem configure_done (w : Byte) (s : State) : (configure w s).done = false := rfl
@[simp] theorem configure_errCfg (w : Byte) (s : State) : (configure w s).errCfg = s.errCfg := rfl
@[simp] theorem configure_errNocfg (w : Byte) (s : State) : (configure w s).errNocfg = s.errNocfg := rfl
@[simp] theorem configure_errIll (w : Byte) (s : State) : (configure w s).errIll = s.errIll := rfl
@[simp] theorem configure_busy (w : Byte) (s : State) : (configure w s).busy = s.busy := rfl
@[simp] theorem configure_wasReset (w : Byte) (s : State) : (configure w s).wasReset = s.wasReset := rfl
@[simp] theorem configure_inputs (w : Byte) (s : State) : (configure w s).inputs = s.inputs := rfl
@[simp] theorem configure_stalls (w : Byte) (s : State) : (configure w s).stalls = s.stalls := rfl
@[simp] theorem configure_draws (w : Byte) (s : State) : (configure w s).draws = s.draws := rfl

/-! ### absorb -/

@[simp] theorem absorb_mixState (b : Byte) (s : State) :
    (absorb b s).toMixState = mix s.toMixState b := rfl
@[simp] theorem absorb_width (b : Byte) (s : State) : (absorb b s).width = s.width := rfl
@[simp] theorem absorb_cfgv (b : Byte) (s : State) : (absorb b s).cfgv = s.cfgv := rfl
@[simp] theorem absorb_result (b : Byte) (s : State) : (absorb b s).result = s.result := rfl
@[simp] theorem absorb_ne (b : Byte) (s : State) : (absorb b s).ne = true := rfl
@[simp] theorem absorb_done (b : Byte) (s : State) : (absorb b s).done = false := rfl
@[simp] theorem absorb_errCfg (b : Byte) (s : State) : (absorb b s).errCfg = s.errCfg := rfl
@[simp] theorem absorb_errNocfg (b : Byte) (s : State) : (absorb b s).errNocfg = s.errNocfg := rfl
@[simp] theorem absorb_errIll (b : Byte) (s : State) : (absorb b s).errIll = s.errIll := rfl
@[simp] theorem absorb_busy (b : Byte) (s : State) : (absorb b s).busy = s.busy := rfl
@[simp] theorem absorb_wasReset (b : Byte) (s : State) : (absorb b s).wasReset = s.wasReset := rfl
@[simp] theorem absorb_inputs (b : Byte) (s : State) : (absorb b s).inputs = s.inputs := rfl
@[simp] theorem absorb_stalls (b : Byte) (s : State) : (absorb b s).stalls = s.stalls := rfl
@[simp] theorem absorb_draws (b : Byte) (s : State) : (absorb b s).draws = s.draws := rfl

/-! ### publish -/

@[simp] theorem publish_mixState (s : State) : (publish s).toMixState = s.toMixState := rfl
@[simp] theorem publish_width (s : State) : (publish s).width = s.width := rfl
@[simp] theorem publish_cfgv (s : State) : (publish s).cfgv = s.cfgv := rfl
@[simp] theorem publish_result (s : State) : (publish s).result = finResult s.toRegs := rfl
@[simp] theorem publish_ne (s : State) : (publish s).ne = s.ne := rfl
@[simp] theorem publish_done (s : State) : (publish s).done = true := rfl
@[simp] theorem publish_errCfg (s : State) : (publish s).errCfg = s.errCfg := rfl
@[simp] theorem publish_errNocfg (s : State) : (publish s).errNocfg = s.errNocfg := rfl
@[simp] theorem publish_errIll (s : State) : (publish s).errIll = s.errIll := rfl
@[simp] theorem publish_busy (s : State) : (publish s).busy = s.busy := rfl
@[simp] theorem publish_wasReset (s : State) : (publish s).wasReset = s.wasReset := rfl
@[simp] theorem publish_inputs (s : State) : (publish s).inputs = s.inputs := rfl
@[simp] theorem publish_stalls (s : State) : (publish s).stalls = s.stalls := rfl
@[simp] theorem publish_draws (s : State) : (publish s).draws = s.draws := rfl

/-! ### the edges -/

@[simp] theorem resetEdge_toRegs (s : State) : (resetEdge s).toRegs = Regs.reset := rfl
@[simp] theorem resetEdge_busy (s : State) : (resetEdge s).busy = 0 := rfl
@[simp] theorem resetEdge_wasReset (s : State) : (resetEdge s).wasReset = true := rfl
@[simp] theorem resetEdge_inputs (s : State) : (resetEdge s).inputs = s.inputs.tail := rfl
@[simp] theorem resetEdge_stalls (s : State) : (resetEdge s).stalls = s.stalls := rfl
@[simp] theorem resetEdge_draws (s : State) : (resetEdge s).draws = s.draws + 1 := rfl

@[simp] theorem quietEdge_toRegs (s : State) : (quietEdge s).toRegs = s.toRegs := rfl
@[simp] theorem quietEdge_busy (s : State) : (quietEdge s).busy = s.busy - 1 := rfl
@[simp] theorem quietEdge_wasReset (s : State) : (quietEdge s).wasReset = s.wasReset := rfl
@[simp] theorem quietEdge_inputs (s : State) : (quietEdge s).inputs = s.inputs.tail := rfl
@[simp] theorem quietEdge_stalls (s : State) : (quietEdge s).stalls = s.stalls := rfl
@[simp] theorem quietEdge_draws (s : State) : (quietEdge s).draws = s.draws + 1 := rfl

@[simp] theorem acceptEdge_toRegs (s : State) : (acceptEdge s).toRegs = s.toRegs := rfl
@[simp] theorem acceptEdge_busy (s : State) : (acceptEdge s).busy = stallOf s.stalls := rfl
@[simp] theorem acceptEdge_wasReset (s : State) : (acceptEdge s).wasReset = s.wasReset := rfl
@[simp] theorem acceptEdge_inputs (s : State) : (acceptEdge s).inputs = s.inputs.tail := rfl
@[simp] theorem acceptEdge_stalls (s : State) : (acceptEdge s).stalls = s.stalls.tail := rfl
@[simp] theorem acceptEdge_draws (s : State) : (acceptEdge s).draws = s.draws + 1 := rfl

@[simp] theorem drive_toRegs (ps : List Pins) (s : State) : (drive ps s).toRegs = s.toRegs := rfl
@[simp] theorem drive_busy (ps : List Pins) (s : State) : (drive ps s).busy = s.busy := rfl
@[simp] theorem drive_wasReset (ps : List Pins) (s : State) : (drive ps s).wasReset = s.wasReset := rfl
@[simp] theorem drive_inputs (ps : List Pins) (s : State) : (drive ps s).inputs = ps ++ s.inputs := rfl
@[simp] theorem drive_stalls (ps : List Pins) (s : State) : (drive ps s).stalls = s.stalls := rfl
@[simp] theorem drive_draws (ps : List Pins) (s : State) : (drive ps s).draws = s.draws := rfl

end Sys2Proof.Machine
end

