-- ==== Sys2Proof/Laws/Ops.lean ====
section
/-! SUPPORT. The shared operations, each by everything it can do. -/

namespace Sys2Proof.Machine

@[simp] theorem and32_ones (x : Word) : and32 x 0xFFFFFFFF#32 = x := BitVec.and_allOnes

/-- `rotl32` without its final mask, which keeps every bit of a 32-bit value. -/
theorem rotl32_eq_or (x : Word) (n : Nat) : rotl32 x n = x <<< n ||| x >>> (32 - n) := and32_ones _

/-- Reading a lane after writing one. -/
theorem lanes_get_set (l : Lanes) (i j : Fin 4) (v : Word) :
    (l.set i v).get j = if j = i then v else l.get j := by
  match i, j with
  | 0, 0 | 0, 1 | 0, 2 | 0, 3 | 1, 0 | 1, 1 | 1, 2 | 1, 3
  | 2, 0 | 2, 1 | 2, 2 | 2, 3 | 3, 0 | 3, 1 | 3, 2 | 3, 3 => rfl

@[simp] theorem lanes_get_set_same (l : Lanes) (i : Fin 4) (v : Word) : (l.set i v).get i = v := by
  simp [lanes_get_set]

/-- Two lane files with the same four lanes are the same. -/
theorem lanes_ext_get {l m : Lanes} (h : ∀ i, l.get i = m.get i) : l = m := by
  obtain ⟨a0, a1, a2, a3⟩ := l
  obtain ⟨b0, b1, b2, b3⟩ := m
  have h0 : a0 = b0 := h 0
  have h1 : a1 = b1 := h 1
  have h2 : a2 = b2 := h 2
  have h3 : a3 = b3 := h 3
  rw [h0, h1, h2, h3]

/-- MIX is MIX at the lane the byte selects (R63, R64). -/
theorem mix_eq_mixAt (m : MixState) (b : Byte) : mix m b = mixAt m b (laneIndex b) := by
  unfold mix
  split <;> simp_all only

/-- The lanes after MIX: the selected one is mixed, the others are kept (R63). -/
theorem mix_lane_get (m : MixState) (b : Byte) (j : Fin 4) :
    (mix m b).lane.get j =
      if j = laneIndex b then mixLane (m.lane.get (laneIndex b)) (mixHead m.acc b) else m.lane.get j := by
  rw [mix_eq_mixAt]
  exact lanes_get_set _ _ _ _

/-- The check of R75 when it passes. -/
theorem whenConfigured_of_cfgv {s : State} (h : s.cfgv = true) (t : State) : whenConfigured s t = .next t := by
  simp [whenConfigured, h]

/-- The check of R75 when it fails. -/
theorem whenConfigured_of_not_cfgv {s : State} (h : s.cfgv = false) (t : State) :
    whenConfigured s t = .next (raise .nocfg s) := by
  simp [whenConfigured, h]

/-- Everything the check of R75 can do. -/
theorem whenConfigured_cases {s t u : State} (h : whenConfigured s t = .next u) :
    (s.cfgv = true ∧ u = t) ∨ (s.cfgv = false ∧ u = raise .nocfg s) := by
  cases hc : s.cfgv with
  | true => rw [whenConfigured_of_cfgv hc] at h; cases h; exact .inl ⟨rfl, rfl⟩
  | false => rw [whenConfigured_of_not_cfgv hc] at h; cases h; exact .inr ⟨rfl, rfl⟩

/-- The legal widths of R59, as a proposition. -/
theorem legalWidth_iff (w : Byte) : legalWidth w = true ↔ w = 2#8 ∨ w = 4#8 ∨ w = 8#8 := by
  simp [legalWidth, or_assoc]

/-- Everything CFG can do (R59). -/
theorem execCfg_cases {w : Byte} {s t : State} (h : execCfg w s = .next t) :
    (legalWidth w = true ∧ t = configure w s) ∨ (legalWidth w = false ∧ t = raise .cfg s) := by
  unfold execCfg at h
  cases hw : legalWidth w with
  | true => rw [if_pos hw] at h; cases h; exact .inl ⟨rfl, rfl⟩
  | false => rw [if_neg (by simp [hw])] at h; cases h; exact .inr ⟨rfl, rfl⟩

/-- Going on from an outcome answers a next state only through one. -/
theorem andThen_eq_next {o : Host.Outcome State Fault Refusal} {f : State → Host.Outcome State Fault Refusal}
    {u : State} (h : andThen o f = .next u) : ∃ t, o = .next t ∧ f t = .next u := by
  cases o with
  | next t => exact ⟨t, rfl, h⟩
  | fault r => cases h
  | refused r => cases h

@[simp] theorem andThen_next (t : State) (f : State → Host.Outcome State Fault Refusal) :
    andThen (.next t) f = f t := rfl

/-- A drawn stall respects the bound of R86. -/
theorem stallOf_le (l : List Nat) : stallOf l ≤ Config.cmdLatencyPred := by
  unfold stallOf
  split
  · exact Nat.zero_le _
  · exact Nat.min_le_right _ _

@[simp] theorem stallOf_nil : stallOf [] = 0 := rfl

end Sys2Proof.Machine
end

