-- ==== Sys2Proof/Laws/PerInstr.lean ====
section
/-! SUPPORT. The statements that hold of every command, one lemma per constructor. -/

namespace Sys2Proof.Laws.OpcodeRow

/-- A command is well formed, its row stands in the opcode map of R52, and its word matches that row. -/
def Statement (i : Instr) : Prop := i.wf = true ∧ i.row ∈ opcodeTable ∧ i.row.covers (encode i) = true

theorem nop : Statement .nop := ⟨rfl, by decide, by decide⟩

theorem cfg (w : Byte) : Statement (.cfg w) := by
  refine ⟨rfl, .tail _ (.head _), ?_⟩
  show (encode (.cfg w) &&& 0xFF00#16 == 0x1000#16) = true
  rw [beq_iff_eq]
  ext i hi
  simp only [encode, assembleFields, BitVec.getElem_and, BitVec.getElem_append]
  interval_cases i <;> simp

theorem init : Statement .init := ⟨rfl, by decide, by decide⟩

theorem abs (b : Byte) : Statement (.abs b) := by
  refine ⟨rfl, .tail _ (.tail _ (.tail _ (.head _))), ?_⟩
  show (encode (.abs b) &&& 0xFF00#16 == 0x3000#16) = true
  rw [beq_iff_eq]
  ext i hi
  simp only [encode, assembleFields, BitVec.getElem_and, BitVec.getElem_append]
  interval_cases i <;> simp

theorem fin : Statement .fin := ⟨rfl, by decide, by decide⟩

end Sys2Proof.Laws.OpcodeRow
end

