-- ==== Sys2Proof/Laws/Step.lean ====
section
/-! SUPPORT. What a word and what an edge can do, said once. -/

namespace Sys2Proof.Machine

/-- Everything a word can do (R54, R58 to R60, R67, R68, R74), each case with the words that lead to it. -/
theorem execWord_cases {w : CmdWord} {s t : State} (h : execWord w s = .next t) :
    ((∃ c, decode w = .error c) ∧ t = raise .ill s) ∨
    (decode w = .ok .nop ∧ t = s) ∨
    (∃ v, decode w = .ok (.cfg v) ∧ legalWidth v = true ∧ t = configure v s) ∨
    (∃ v, decode w = .ok (.cfg v) ∧ legalWidth v = false ∧ t = raise .cfg s) ∨
    ((decode w = .ok .init ∨ (∃ b, decode w = .ok (.abs b)) ∨ decode w = .ok .fin) ∧ s.cfgv = false ∧
      t = raise .nocfg s) ∨
    (decode w = .ok .init ∧ s.cfgv = true ∧ t = startSession s) ∨
    (∃ b, decode w = .ok (.abs b) ∧ s.cfgv = true ∧ t = absorb b s) ∨
    (decode w = .ok .fin ∧ s.cfgv = true ∧ t = publish s) := by
  unfold execWord at h
  cases hd : decode w with
  | error c =>
    rw [hd] at h
    cases h
    exact .inl ⟨⟨c, rfl⟩, rfl⟩
  | ok i =>
    rw [hd] at h
    cases i with
    | nop => cases h; exact .inr (.inl ⟨rfl, rfl⟩)
    | cfg v =>
      rcases execCfg_cases h with ⟨hv, rfl⟩ | ⟨hv, rfl⟩
      · exact .inr (.inr (.inl ⟨v, rfl, hv, rfl⟩))
      · exact .inr (.inr (.inr (.inl ⟨v, rfl, hv, rfl⟩)))
    | init =>
      rcases whenConfigured_cases h with ⟨hc, rfl⟩ | ⟨hc, rfl⟩
      · exact .inr (.inr (.inr (.inr (.inr (.inl ⟨rfl, hc, rfl⟩)))))
      · exact .inr (.inr (.inr (.inr (.inl ⟨.inl rfl, hc, rfl⟩))))
    | abs b =>
      rcases whenConfigured_cases h with ⟨hc, rfl⟩ | ⟨hc, rfl⟩
      · exact .inr (.inr (.inr (.inr (.inr (.inr (.inl ⟨b, rfl, hc, rfl⟩))))))
      · exact .inr (.inr (.inr (.inr (.inl ⟨.inr (.inl ⟨b, rfl⟩), hc, rfl⟩))))
    | fin =>
      rcases whenConfigured_cases h with ⟨hc, rfl⟩ | ⟨hc, rfl⟩
      · exact .inr (.inr (.inr (.inr (.inr (.inr (.inr ⟨rfl, hc, rfl⟩))))))
      · exact .inr (.inr (.inr (.inr (.inl ⟨.inr (.inr rfl), hc, rfl⟩))))

/-- No word touches the pins, the free values or the reset history. -/
theorem execWord_env {w : CmdWord} {s t : State} (h : execWord w s = .next t) :
    t.busy = s.busy ∧ t.wasReset = s.wasReset ∧ t.inputs = s.inputs ∧ t.stalls = s.stalls ∧ t.draws = s.draws := by
  rcases execWord_cases h with ⟨-, rfl⟩ | ⟨-, rfl⟩ | ⟨v, -, -, rfl⟩ | ⟨v, -, -, rfl⟩ | ⟨-, -, rfl⟩ | ⟨-, -, rfl⟩ |
    ⟨b, -, -, rfl⟩ | ⟨-, -, rfl⟩ <;> simp

/-- An edge that accepts is one without reset, after a reset, to a block that is not busy. -/
theorem accepts_iff (s : State) :
    accepts s = true ↔ s.wasReset = true ∧ (pins s).rst = false ∧ (pins s).cmdValid = true ∧ s.busy = 0 := by
  simp [accepts, offered, and_assoc]

/-- Everything an edge can do: a reset, the refusal of R84's table aside, an accepted word, or nothing. -/
theorem step_cases {s t : State} (h : step s = .next t) :
    ((pins s).rst = true ∧ t = resetEdge s) ∨
    ((pins s).rst = false ∧ accepts s = true ∧ ∃ u, execWord (pins s).cmd s = .next u ∧ t = acceptEdge u) ∨
    ((pins s).rst = false ∧ accepts s = false ∧ t = quietEdge s) := by
  unfold step at h
  cases hr : (pins s).rst with
  | true =>
    rw [if_pos hr] at h
    cases h
    exact .inl ⟨rfl, rfl⟩
  | false =>
    rw [if_neg (by simp [hr])] at h
    split at h
    · cases h
    · cases ha : accepts s with
      | true =>
        rw [if_pos ha] at h
        obtain ⟨u, hu, hn⟩ := andThen_eq_next h
        cases hn
        exact .inr (.inl ⟨rfl, rfl, u, hu, rfl⟩)
      | false =>
        rw [if_neg (by simp [ha])] at h
        cases h
        exact .inr (.inr ⟨rfl, rfl, rfl⟩)

/-- The command an edge accepts is the decoded word of an accepting edge. -/
theorem acceptedCommand_eq_some {s : State} {i : Instr} :
    acceptedCommand s = some i ↔ accepts s = true ∧ decode (pins s).cmd = .ok i := by
  unfold acceptedCommand
  cases accepts s with
  | false => simp
  | true => cases decode (pins s).cmd <;> simp

/-- An edge with `rst = 1` accepts no command (R83). -/
theorem acceptedCommand_of_rst {s : State} (h : (pins s).rst = true) : acceptedCommand s = none := by
  have : accepts s = false := by rw [← Bool.not_eq_true, accepts_iff]; simp [h]
  simp [acceptedCommand, this]

/-- An edge that accepts nothing accepts no command. -/
theorem acceptedCommand_of_not_accepts {s : State} (h : accepts s = false) : acceptedCommand s = none := by
  simp [acceptedCommand, h]

/-- An ILLEGAL word is no command (R54). -/
theorem acceptedCommand_of_illegal {s : State} (h : ∃ c, decode (pins s).cmd = .error c) :
    acceptedCommand s = none := by
  obtain ⟨c, hc⟩ := h
  simp [acceptedCommand, hc]

/-- What an edge does to the registers, with the command it accepts: the ten cases a proof about one register goes
through. -/
inductive EdgeEffect (s t : State) : Prop where
  | reset (rst : (pins s).rst = true) (regs : t.toRegs = Regs.reset)
  | quiet (rst : (pins s).rst = false) (acc : accepts s = false) (regs : t.toRegs = s.toRegs)
  | illegal (rst : (pins s).rst = false) (bad : ∃ c, decode (pins s).cmd = .error c)
      (regs : t.toRegs = (raise .ill s).toRegs)
  | nop (rst : (pins s).rst = false) (cmd : acceptedCommand s = some .nop) (regs : t.toRegs = s.toRegs)
  | configured (rst : (pins s).rst = false) (w : Byte) (cmd : acceptedCommand s = some (.cfg w))
      (legal : legalWidth w = true) (regs : t.toRegs = (configure w s).toRegs)
  | badWidth (rst : (pins s).rst = false) (w : Byte) (cmd : acceptedCommand s = some (.cfg w))
      (legal : legalWidth w = false) (regs : t.toRegs = (raise .cfg s).toRegs)
  | unconfigured (rst : (pins s).rst = false) (i : Instr) (which : i = .init ∨ (∃ b, i = .abs b) ∨ i = .fin)
      (cmd : acceptedCommand s = some i) (cfgv : s.cfgv = false) (regs : t.toRegs = (raise .nocfg s).toRegs)
  | started (rst : (pins s).rst = false) (cmd : acceptedCommand s = some .init) (cfgv : s.cfgv = true)
      (regs : t.toRegs = (startSession s).toRegs)
  | absorbed (rst : (pins s).rst = false) (b : Byte) (cmd : acceptedCommand s = some (.abs b))
      (cfgv : s.cfgv = true) (regs : t.toRegs = (absorb b s).toRegs)
  | published (rst : (pins s).rst = false) (cmd : acceptedCommand s = some .fin) (cfgv : s.cfgv = true)
      (regs : t.toRegs = (publish s).toRegs)

/-- Every edge that answers a next state has one of these effects. -/
theorem edgeEffect_of_step {s t : State} (h : step s = .next t) : EdgeEffect s t := by
  rcases step_cases h with ⟨hr, rfl⟩ | ⟨hr, ha, u, hu, rfl⟩ | ⟨hr, ha, rfl⟩
  · exact .reset hr rfl
  · have cmd : ∀ {i}, decode (pins s).cmd = .ok i → acceptedCommand s = some i :=
      fun d => acceptedCommand_eq_some.2 ⟨ha, d⟩
    rcases execWord_cases hu with ⟨d, rfl⟩ | ⟨d, rfl⟩ | ⟨w, d, l, rfl⟩ | ⟨w, d, l, rfl⟩ | ⟨d, l, rfl⟩ |
      ⟨d, l, rfl⟩ | ⟨b, d, l, rfl⟩ | ⟨d, l, rfl⟩
    · exact .illegal hr d rfl
    · exact .nop hr (cmd d) rfl
    · exact .configured hr w (cmd d) l rfl
    · exact .badWidth hr w (cmd d) l rfl
    · rcases d with d | ⟨b, d⟩ | d
      · exact .unconfigured hr _ (.inl rfl) (cmd d) l rfl
      · exact .unconfigured hr _ (.inr (.inl ⟨b, rfl⟩)) (cmd d) l rfl
      · exact .unconfigured hr _ (.inr (.inr rfl)) (cmd d) l rfl
    · exact .started hr (cmd d) l rfl
    · exact .absorbed hr b (cmd d) l rfl
    · exact .published hr (cmd d) l rfl
  · exact .quiet hr ha rfl

/-- Which error a raise sets, flag by flag (R79). -/
theorem flagOf_raise (e k : ErrKind) (s : State) :
    flagOf k (raise e s).toRegs = (flagOf k s.toRegs || e == k) := by
  cases e <;> cases k <;> simp [raise, flagOf]

/-- `err` is 1 exactly when one of the three flags is (R78). -/
theorem errLine_iff (r : Regs) : errLine r = true ↔ ∃ e, flagOf e r = true := by
  constructor
  · intro h
    simp only [errLine, Bool.or_eq_true] at h
    rcases h with (h | h) | h
    exacts [⟨.cfg, h⟩, ⟨.nocfg, h⟩, ⟨.ill, h⟩]
  · rintro ⟨e, h⟩
    cases e <;> simp only [flagOf] at h <;> simp [errLine, h]

end Sys2Proof.Machine
end

