-- ==== Sys2Proof/Tests/Slice0.lean ====
section
/-! SUPPORT. The model's own tests. Expected values come from the spec's encodings (30_encoding.md R52 to R56), from
its worked examples (R59, R60, R67, R68) and from the hand-derived vectors of 95_test_vectors.md (named V-…). Then, for
each statement with hypotheses, a witness that meets them. -/

namespace Sys2Proof.Tests

open Sys2Proof.Machine

/-! ### Helpers -/

/-- The next state of an outcome. -/
def nextOf (o : Host.Outcome State Fault Refusal) : Option State :=
  match o with
  | .next t => some t
  | .fault _ => none
  | .refused _ => none

/-- The STATUS word after an outcome. -/
def statusAfter (o : Host.Outcome State Fault Refusal) : Option (BitVec 16) :=
  (nextOf o).map (fun t => statusWord t.toRegs)

/-- A state configured at width 8, as `CFG 8` leaves it from reset. -/
def ready8 : State := { State.reset with width := 8#4, cfgv := true }

/-- `ready8` after one byte `0x41` (V-A2). -/
def after41 : State :=
  { ready8 with
    acc := 0x9F2D8657#32, lane := ⟨0x12345678#32, 0xF5807926#32, 0xFEDCBA09#32, 0x87654321#32⟩, ne := true }

/-- `after41` after FIN (V-F3e). -/
def published41 : State := { after41 with result := 0x79#8, done := true }

/-- A state at which the host offers a word. -/
def offering (w : CmdWord) (s : State) : State := drive [Pins.offer w] s

/-- A state at which the host drives `rst = 1`. -/
def resetting (s : State) : State := drive [Pins.reset] s

/-- A power-on state (R84): never reset, with arbitrary registers. -/
def powerOn : State := { State.reset with acc := 0x12345678#32, width := 5#4, busy := 3, wasReset := false }

/-! ### Well-formedness: each check refuses an ill-formed line -/

theorem test_wf_refuses_cfg_256 : (AsmLine.cfg 256).wf = false := by decide
theorem test_wf_refuses_abs_256 : (AsmLine.abs 256).wf = false := by decide
theorem test_wf_refuses_word_of_17_bits : (AsmLine.word 0x10000).wf = false := by decide
theorem test_wf_refuses_hash_operand : (AsmLine.hash [0, 255, 256]).wf = false := by decide
theorem test_wf_refuses_hashw_width : (AsmLine.hashw 256 [0]).wf = false := by decide
theorem test_wf_refuses_hashw_operand : (AsmLine.hashw 8 [256]).wf = false := by decide
theorem test_ill_formed_line_emits_no_word : assemble (.cfg 256) = none ∧ assemble (.word 0x10000) = none := by decide
theorem test_wf_accepts_every_operand : (Instr.cfg 3#8).wf = true ∧ (Instr.abs 0xFF#8).wf = true := by decide

/-! ### Decoding: words written out bit by bit from the patterns of R52 -/

theorem test_decode_nop : decode 0b0000000000000000#16 = .ok .nop := by decide
theorem test_decode_cfg : decode 0b0001000000001000#16 = .ok (.cfg 0b00001000#8) := by decide
theorem test_decode_cfg_illegal_width : decode 0b0001000010000011#16 = .ok (.cfg 0b10000011#8) := by decide
theorem test_decode_init : decode 0b0010000000000000#16 = .ok .init := by decide
theorem test_decode_abs : decode 0b0011000010110001#16 = .ok (.abs 0b10110001#8) := by decide
theorem test_decode_fin : decode 0b0100000000000000#16 = .ok .fin := by decide
theorem test_decode_reserved : decode 0b0101000000000000#16 = .error .reservedOpcode := by decide
theorem test_decode_nonzero_z : decode 0b0011100010110001#16 = .error .nonzeroZ := by decide
theorem test_decode_nonzero_imm : decode 0b0100000010000000#16 = .error .nonzeroImm := by decide
theorem test_encode_abs : encode (.abs 0xB1#8) = 0b0011000010110001#16 := by decide
theorem test_encode_cfg : encode (.cfg 0x08#8) = 0b0001000000001000#16 := by decide

/-- No word matches two rows of the opcode map (R52): any two rows differ in a bit that both masks keep. -/
theorem test_opcode_rows_disjoint :
    opcodeTable.Pairwise (fun r q =>
      r.maskBits &&& q.maskBits &&& r.matchBits ≠ r.maskBits &&& q.maskBits &&& q.matchBits) := by decide

theorem test_table_word_decodes : decodeTableWord 16 0x3041 = some (.abs 0x41#8) := by decide
theorem test_table_word_illegal : decodeTableWord 16 0xF000 = none := by decide
theorem test_table_word_too_long : decodeTableWord 32 0x13041 = none := by decide

/-! ### Primitives (V-R1 to V-R10) -/

theorem test_rotl_7 : rotl32 0x80000000#32 7 = 0x00000040#32 := by decide
theorem test_rotl_13 : rotl32 0x89ABCDEF#32 13 = 0x79BDF135#32 := by decide
theorem test_rotl_5 : rotl32 0x12345678#32 5 = 0x468ACF02#32 := by decide
theorem test_mix_step2 : mixStep2 0x5A5A5A1B#32 = 0x777757B6#32 := by decide
theorem test_mix_step3_wraps : mixStep3 0xFFFFFFFF#32 = 0x61C88647#32 := by decide
theorem test_masks : mask 2#4 = 0x3#32 ∧ mask 4#4 = 0xF#32 ∧ mask 8#4 = 0xFF#32 := by decide

/-! ### The commands, one step each -/

/-- V-N1. -/
theorem test_nop_keeps_state : nextOf (exec .nop published41) = some published41 := by decide

/-- V-C7 and the example of R59. -/
theorem test_cfg_8_from_reset : nextOf (exec (.cfg 8#8) State.reset) = some ready8 := by decide

/-- V-C10: an invalid width keeps the session. -/
theorem test_cfg_16_keeps_session :
    nextOf (exec (.cfg 16#8) after41) = some { after41 with errCfg := true } := by decide

/-- V-C11: a valid CFG starts a new session. -/
theorem test_cfg_4_restarts : statusAfter (exec (.cfg 4#8) published41) = some 0x0401#16 := by decide

/-- V-I1. -/
theorem test_init_unconfigured :
    nextOf (exec .init State.reset) = some { State.reset with errNocfg := true } := by decide

/-- V-I2 at width 8: INIT discards the session. -/
theorem test_init_discards_session : nextOf (exec .init published41) = some ready8 := by decide

/-- V-A2: byte `0x41` from the initial MixState. -/
theorem test_abs_41 : nextOf (exec (.abs 0x41#8) ready8) = some after41 := by decide

/-- V-A6, the third `0x41` of `AAAA`: accumulator and lane 1. -/
theorem test_abs_third_41 :
    mix ⟨0x35714DEB#32, ⟨0x12345678#32, 0x694BCD96#32, 0xFEDCBA09#32, 0x87654321#32⟩⟩ 0x41#8 =
      ⟨0x76F9F286#32, ⟨0x12345678#32, 0x35BAE5EF#32, 0xFEDCBA09#32, 0x87654321#32⟩⟩ := by decide

/-- V-A3: byte `0xFF` selects lane 3. -/
theorem test_abs_ff :
    mix mixStart 0xFF#8 =
      ⟨0x76012D5C#32, ⟨0x12345678#32, 0x9ABCDEF0#32, 0xFEDCBA09#32, 0xBB896212#32⟩⟩ := by decide

/-- V-F3e. -/
theorem test_fin_41 : nextOf (exec .fin after41) = some published41 := by decide

/-- V-F1: the empty rule, STATUS of V-D11. -/
theorem test_fin_empty : statusAfter (exec .fin ready8) = some 0x0805#16 ∧
    (nextOf (exec .fin ready8)).map (fun t => t.result) = some 0x00#8 := by decide

/-- V-F14: all 256 byte values in ascending order. -/
theorem test_hash_all_bytes : hashOf .ascending 8#4 ((List.range 256).map (BitVec.ofNat 8)) = 0x60#8 := by
  decide +kernel

/-- V-D13: an illegal word from a configured block. -/
theorem test_illegal_word : statusAfter (execWord 0x5000#16 ready8) = some 0x0821#16 := by decide

/-! ### Edges -/

theorem test_fetched_word_runs : nextOf (step (State.reset.withFetchWord 16 0x1008)) =
    some { ready8 with draws := 1 } := by decide

theorem test_busy_block_ignores_word :
    nextOf (step (offering 0x3041#16 { ready8 with busy := 2 })) = some { ready8 with busy := 1, draws := 1 } := by
  decide

theorem test_reset_abandons_command :
    nextOf (step (resetting { after41 with busy := 7, errIll := true })) = some { State.reset with draws := 1 } := by
  decide

theorem test_word_before_reset_refused : nextOf (step (offering 0x1008#16 powerOn)) = none := by decide

/-! ### Assembler and renderings (R56, R57, 95_test_vectors.md section 5) -/

/-- `HASHW 2, 0x41, 66 ; x`. -/
theorem test_assemble_text :
    assembleText ['H', 'A', 'S', 'H', 'W', ' ', '2', ',', ' ', '0', 'x', '4', '1', ',', '6', '6', ' ', ';', 'x'] =
      some [0x1002#16, 0x3041#16, 0x3042#16, 0x4000#16] := by decide

/-- `.word 0x5000`, the only way to write an illegal word. -/
theorem test_assemble_data_word :
    assembleText ['.', 'w', 'o', 'r', 'd', ' ', '0', 'x', '5', '0', '0', '0'] = some [0x5000#16] := by decide

theorem test_assemble_error : assembleText ['C', 'F', 'G', ' ', '2', '5', '6'] = none := by decide

theorem test_binary_rendering : binString 8 0x19#8 = ['0', '0', '0', '1', '1', '0', '0', '1'] := by decide

theorem test_hex_rendering : hexString .lower 8 0x0B#8 = ['0', 'b'] ∧ hexString .upper 2 3#8 = ['3'] := by decide

/-! ### Witnesses: for each statement with hypotheses, states and operands that meet them, clause by clause -/

theorem ready8_inv : Inv ready8 := ⟨rfl, by constructor <;> decide, Nat.succ_pos _⟩

theorem after41_session : HoldsSession after41.toRegs [0x41#8] := by constructor <;> decide

theorem published41_session : HoldsSession published41.toRegs [0x41#8] := by constructor <;> decide

theorem witness_DecodeAndEncodeAgree :
    (Instr.cfg 0xFF#8).wf = true ∧ decode 0x10FF#16 = .ok (.cfg 0xFF#8) := by decide

theorem witness_OpcodeMapDecidesEveryWord :
    (∃ r ∈ opcodeTable, r.covers 0x30FF#16 = true) ∧ 5 ≤ ((0x5000#16).extractLsb' 12 4).toNat ∧
      5 ≤ ((0xFFFF#16).extractLsb' 12 4).toNat := by decide

theorem witness_MustBeZeroFieldsAreIllegal :
    (0x0100#16).extractLsb' 8 4 ≠ 0#4 ∧ (0x3F00#16).extractLsb' 8 4 ≠ 0#4 ∧
    ((0x0001#16).extractLsb' 12 4 = 0x0#4 ∧ (0x0001#16).extractLsb' 0 8 ≠ 0#8) ∧
    ((0x20FF#16).extractLsb' 12 4 = 0x2#4 ∧ (0x20FF#16).extractLsb' 0 8 ≠ 0#8) ∧
    ((0x4080#16).extractLsb' 12 4 = 0x4#4 ∧ (0x4080#16).extractLsb' 0 8 ≠ 0#8) := by decide

theorem witness_DecoderHasSixOutcomes :
    decode 0x5000#16 = .error .reservedOpcode ∧ (1#8 ≠ 2#8 ∧ 1#8 ≠ 4#8 ∧ 1#8 ≠ 8#8) ∧
      (255#8 ≠ 2#8 ∧ 255#8 ≠ 4#8 ∧ 255#8 ≠ 8#8) := by decide

theorem witness_ReservedOpcodesRaiseErrIll :
    5 ≤ ((0x5000#16).extractLsb' 12 4).toNat ∧ 5 ≤ ((0xFFFF#16).extractLsb' 12 4).toNat := by decide

theorem witness_AssemblerFollowsItsTable : (0 ≤ 255 ∧ 255 ≤ 255) ∧ 255 < 256 := by decide

theorem witness_PseudoInstructionsExpand : (∀ b ∈ [0, 255], b ≤ 255) ∧ 255 ≤ 255 ∧ ready8.cfgv = true := by decide

theorem witness_OperatorsWrapModuloTwoToThe32 : ∃ n, n = 5 ∨ n = 7 ∨ n = 13 := ⟨13, by decide⟩

theorem witness_MixIsTheEightIntegerSteps : (3 : Fin 4).val = (0xFF#8).toNat % 4 ∧ (0 : Fin 4) ≠ 3 := by decide

theorem witness_BytesSelectLanes : (2 : Fin 4) ≠ laneIndex 0x41#8 ∧ ∀ b ∈ [0x41#8, 0xFF#8], laneIndex b ≠ 0 := by
  decide

theorem witness_TruncationKeepsLowBits : ∃ w : BitVec 4, w = 2#4 ∨ w = 4#4 ∨ w = 8#4 := ⟨8#4, by decide⟩

theorem witness_NopLeavesEveryState : (0x00FF#16).extractLsb' 12 4 = 0x0#4 ∧ 0x00FF#16 ≠ 0x0000#16 := by decide

theorem witness_CfgConstructsEngineOrRaises :
    (2#8 = 2#8 ∨ 2#8 = 4#8 ∨ 2#8 = 8#8) ∧ (8#8 = 2#8 ∨ 8#8 = 4#8 ∨ 8#8 = 8#8) ∧
      (3#8 ≠ 2#8 ∧ 3#8 ≠ 4#8 ∧ 3#8 ≠ 8#8) ∧ (9#8 ≠ 2#8 ∧ 9#8 ≠ 4#8 ∧ 9#8 ≠ 8#8) := by decide

theorem witness_InitStartsComputationOrRaises :
    ready8.cfgv = true ∧ State.reset.cfgv = false ∧ (∃ t, exec .init published41 = .next t) ∧
      (∃ t, exec (.cfg 2#8) published41 = .next t) ∧
      ({ ready8 with width := 4#4 } : State).cfgv = true ∧ errLine ready8.toRegs = false :=
  ⟨rfl, rfl, ⟨_, rfl⟩, ⟨_, rfl⟩, rfl, rfl⟩

theorem witness_AbsMixesOneByteOrRaises :
    after41.cfgv = true ∧ State.reset.cfgv = false ∧ HoldsSession after41.toRegs [0x41#8] :=
  ⟨rfl, rfl, after41_session⟩

theorem witness_FinPublishesHashOrRaises :
    after41.cfgv = true ∧ State.reset.cfgv = false ∧ after41.width = 8#4 ∧
      ∃ t u, exec .fin after41 = .next t ∧ exec .fin t = .next u :=
  ⟨rfl, rfl, rfl, _, _, rfl, rfl⟩

/-- Edges that accept each command, and an edge with `rst = 1`: what the statements about the writers of a register
ask for. -/
theorem witness_edges_of_every_kind :
    (∃ t, step (resetting after41) = .next t ∧ (pins (resetting after41)).rst = true) ∧
    (∃ t, step (offering 0x2000#16 after41) = .next t ∧ acceptedCommand (offering 0x2000#16 after41) = some .init) ∧
    (∃ t, step (offering 0x1002#16 after41) = .next t ∧
      acceptedCommand (offering 0x1002#16 after41) = some (.cfg 2#8)) ∧
    (∃ t, step (offering 0x3041#16 ready8) = .next t ∧
      acceptedCommand (offering 0x3041#16 ready8) = some (.abs 0x41#8)) ∧
    (∃ t, step (offering 0x4000#16 ready8) = .next t ∧ acceptedCommand (offering 0x4000#16 ready8) = some .fin) :=
  ⟨⟨_, rfl, rfl⟩, ⟨_, rfl, by decide⟩, ⟨_, rfl, by decide⟩, ⟨_, rfl, by decide⟩, ⟨_, rfl, by decide⟩⟩

/-- A configured state at which the host offers INIT meets the invariant. -/
theorem offering_inv (w : CmdWord) : Inv (offering w ready8) := ⟨rfl, ready8_inv.regs, Nat.succ_pos _⟩

theorem witness_MixStateWriters :
    ∃ t, step (offering 0x3041#16 ready8) = .next t ∧ t.toMixState ≠ ready8.toMixState ∧ (2 : Fin 4) ≠ laneIndex 0x41#8 :=
  ⟨_, rfl, by decide, by decide⟩

theorem witness_WidthWriters :
    ∃ t, step (offering 0x1002#16 ready8) = .next t ∧ t.width ≠ ready8.width ∧ Inv (offering 0x1002#16 ready8) :=
  ⟨_, rfl, by decide, offering_inv _⟩

theorem witness_CfgvWriters :
    (∃ t, step (offering 0x1008#16 State.reset) = .next t ∧ t.cfgv ≠ State.reset.cfgv) ∧ State.reset.cfgv = false ∧
      Inv (offering 0x1008#16 ready8) :=
  ⟨⟨_, rfl, by decide⟩, rfl, offering_inv _⟩

theorem witness_ResultWriters :
    ∃ t, step (offering 0x4000#16 after41) = .next t ∧ t.result ≠ after41.result ∧ Inv (offering 0x4000#16 ready8) :=
  ⟨_, rfl, by decide, offering_inv _⟩

theorem witness_NeWriters :
    (∃ t, step (offering 0x3041#16 ready8) = .next t ∧ t.ne ≠ ready8.ne) ∧
      (acceptedCommand (offering 0x4000#16 ready8) = some .fin ∧ ready8.cfgv = true ∧ ready8.ne = false) :=
  ⟨⟨_, rfl, by decide⟩, by decide⟩

theorem witness_DoneWriters :
    (acceptedCommand (offering 0x0000#16 published41) = some .nop) ∧
    ((pins (offering 0x5000#16 published41)).rst = false ∧
      raisedBy (pins (offering 0x5000#16 published41)).cmd published41.toRegs ≠ none) ∧
    (∃ t, step (offering 0x4000#16 ready8) = .next t ∧ t.done = true ∧ Inv (offering 0x4000#16 ready8)) ∧
    (∃ t, step (offering 0x4000#16 after41) = .next t ∧ t.done = true ∧
      HoldsSession (offering 0x4000#16 after41).toRegs [0x41#8]) :=
  ⟨by decide, by decide, ⟨_, rfl, by decide, offering_inv _⟩, _, rfl, by decide, after41_session⟩

theorem witness_InitForgetsEverySession :
    (published41.cfgv = true ∧ ready8.cfgv = true ∧ published41.width = ready8.width) ∧
      (2#8 = 2#8 ∨ 2#8 = 4#8 ∨ 2#8 = 8#8) := by decide

theorem witness_MixStateHasNoPort : outputsValid published41 = true := by decide

theorem witness_ErrorSetsOneFlagOnly :
    raisedBy 0x5000#16 ready8.toRegs = some .ill ∧ raisedBy 0x1003#16 ready8.toRegs = some .cfg ∧
      raisedBy 0x4000#16 State.reset.toRegs = some .nocfg := by decide

theorem witness_ErrorCausesInPriorityOrder :
    decode 0x2001#16 = .error .nonzeroImm ∧ decode 0x1003#16 = .ok (.cfg 3#8) ∧ decode 0x30FF#16 = .ok (.abs 0xFF#8) ∧
      State.reset.cfgv = false := by decide

theorem witness_ErrLineIsOrOfFlags :
    (ready8.wasReset = true ∧ cmdReady ready8 = true) ∧
    ∃ t, step (resetting { ready8 with errIll := true }) = .next t ∧
      errLine ({ ready8 with errIll := true } : State).toRegs = true ∧ errLine t.toRegs = false :=
  ⟨by decide, _, rfl, by decide, by decide⟩

theorem witness_OnlyResetClearsErrors :
    (∃ t, step (offering 0x1008#16 { ready8 with errIll := true }) = .next t) ∧
      (∃ t, exec (.cfg 8#8) { ready8 with errIll := true } = .next t) ∧
      flagOf .ill ({ ready8 with errIll := true } : State).toRegs = true :=
  ⟨⟨_, rfl⟩, ⟨_, rfl⟩, rfl⟩

theorem witness_ErrAtTheEndCoversTheSequence :
    (∃ t, execWords [0x1008#16, 0x3041#16] State.reset = .next t ∧ noError t.toRegs) ∧
      (∃ t, execWords [0x5000#16] State.reset = .next t ∧ ¬ noError t.toRegs) :=
  ⟨⟨_, rfl, rfl⟩, _, rfl, fun h => Bool.noConfusion (h : true = false)⟩

theorem witness_ResetEdgeResetsEverything :
    (pins (resetting powerOn)).rst = true ∧ (pins (drive [Pins.reset, Pins.offer 0x1008#16] after41)).rst = true := by
  decide

theorem witness_NothingRunsBeforeTheFirstReset :
    (offering 0x0000#16 powerOn).wasReset = false ∧ (pins (offering 0x0000#16 powerOn)).rst = false ∧
    (pins (offering 0x0000#16 powerOn)).cmdValid = true ∧
    powerOn.wasReset = false ∧ (pins powerOn).rst = false ∧ (pins powerOn).cmdValid = false := by
  decide

theorem witness_AcceptanceHandshake :
    accepts (offering 0x3041#16 ready8) = true ∧
      (ready8.wasReset = true ∧ cmdReady (offering 0x3041#16 { ready8 with busy := 1 }) = false) := by decide

theorem witness_ReadyReturnsWithinLatency :
    accepts (offering 0x3041#16 ready8) = true ∧ (∃ t, step (offering 0x3041#16 ready8) = .next t) ∧
      ∀ p ∈ ready8.inputs.take 3, p.rst = false :=
  ⟨by decide, ⟨_, rfl⟩, by decide⟩

theorem witness_OutputsValidOnlyWhenReady :
    (cmdReady ready8 = true ∧ (pins ready8).rst = false) ∧ cmdReady { ready8 with busy := 1 } = false ∧
      ready8.wasReset = true := by decide

theorem witness_HeldWordsTakeEffectInOrder :
    ({ ready8 with busy := 2, inputs := schedule [0x3041#16] 2 [] } : State).wasReset = true ∧
    ({ ready8 with busy := 2, inputs := schedule [0x3041#16] 2 [] } : State).inputs =
      schedule [0x3041#16] 2 ready8.stalls ++ [] :=
  ⟨rfl, rfl⟩

theorem witness_OnlyOfferedWordsTakeEffect :
    ready8.wasReset = true ∧ ∀ p ∈ (offering 0x3041#16 ready8).inputs.take 5, p.rst = false := by decide

theorem witness_StepRunsTheDecodedCommand :
    (accepts (offering 0x3041#16 ready8) = true ∧ decode (pins (offering 0x3041#16 ready8)).cmd = .ok (.abs 0x41#8)) ∧
    (accepts (offering 0x5000#16 ready8) = true ∧
      decode (pins (offering 0x5000#16 ready8)).cmd = .error .reservedOpcode) := by decide

theorem witness_ResetEdgeEstablishesInvariant : (pins (resetting powerOn)).rst = true := by decide

theorem witness_EveryEdgeKeepsInvariant :
    Inv (offering 0x3041#16 ready8) ∧ ∃ t, step (offering 0x3041#16 ready8) = .next t :=
  ⟨offering_inv _, _, rfl⟩

theorem witness_EveryEdgeTracksTheSession :
    HoldsSession (offering 0x3042#16 published41).toRegs [0x41#8] ∧
      ∃ t, step (offering 0x3042#16 published41) = .next t :=
  ⟨published41_session, _, rfl⟩

theorem witness_DoneResultIsTheSessionHash :
    HoldsSession published41.toRegs [0x41#8] ∧ outputsValid published41 = true ∧
      (statusPort published41).getLsbD 2 = true :=
  ⟨published41_session, by decide, by decide⟩

theorem witness_SessionsComputeTheHash :
    published41.cfgv = true ∧
    ([Instr.init, .nop, .abs 0x41#8, .fin].filter (fun i => i != .nop) =
      .init :: ([0x41#8].map .abs ++ [.fin])) ∧
    ([Instr.nop, .cfg 2#8, .fin].filter (fun i => i != .nop) = .cfg 2#8 :: (([] : List Byte).map .abs ++ [.fin])) := by
  decide

theorem witness_HashRangeAndEmptyInput : ∃ w : BitVec 4, w = 2#4 ∨ w = 4#4 ∨ w = 8#4 := ⟨2#4, by decide⟩

theorem witness_OmittingInitContinuesTheSession :
    published41.cfgv = true ∧ HoldsSession published41.toRegs [0x41#8] := ⟨rfl, published41_session⟩

theorem witness_BootThenHashAtThePorts :
    ({ powerOn with inputs := Pins.reset :: schedule ((expandHashw 2#8 [0x41#8]).map encode) 0 [] } : State).inputs =
      Pins.reset :: schedule ((expandHashw 2#8 [0x41#8]).map encode) 0 powerOn.stalls ∧ Pins.reset.rst = true ∧
    (2#8 = 2#8 ∨ 2#8 = 4#8 ∨ 2#8 = 8#8) :=
  ⟨rfl, rfl, .inl rfl⟩

theorem witness_RenderingsReadBack :
    ((2 = 2 ∨ 2 = 4 ∨ 2 = 8) ∧ (3#8).toNat < 2 ^ 2) ∧ ((8 = 2 ∨ 8 = 4 ∨ 8 = 8) ∧ (255#8).toNat < 2 ^ 8) := by decide

end Sys2Proof.Tests
end

section
/-! PROOFS. The 32-bit operators of R12 as bits and as natural numbers: one lemma per operator, then O9. -/

namespace Sys2Proof.Machine

@[simp] theorem xor32_getLsbD (a b : Word) (i : Nat) : (xor32 a b).getLsbD i = (a.getLsbD i ^^ b.getLsbD i) :=
  BitVec.getLsbD_xor

@[simp] theorem and32_getLsbD (a b : Word) (i : Nat) : (and32 a b).getLsbD i = (a.getLsbD i && b.getLsbD i) :=
  BitVec.getLsbD_and

@[simp] theorem or32_getLsbD (a b : Word) (i : Nat) : (or32 a b).getLsbD i = (a.getLsbD i || b.getLsbD i) :=
  BitVec.getLsbD_or

@[simp] theorem mul32_toNat (a b : Word) : (mul32 a b).toNat = a.toNat * b.toNat % 2 ^ 32 := BitVec.toNat_mul a b

@[simp] theorem shl32_toNat (a : Word) (n : Nat) : (shl32 a n).toNat = a.toNat * 2 ^ n % 2 ^ 32 := by
  rw [shl32, BitVec.toNat_shiftLeft, Nat.shiftLeft_eq]

@[simp] theorem shr32_toNat (a : Word) (n : Nat) : (shr32 a n).toNat = a.toNat / 2 ^ n := by
  rw [shr32, BitVec.toNat_ushiftRight, Nat.shiftRight_eq_div_pow]

/-- The left shift of a 32-bit value drops its top `n` bits and moves the others up. -/
theorem mul_two_pow_mod_word (x : Nat) {n : Nat} (hn : n ≤ 32) :
    x * 2 ^ n % 2 ^ 32 = x % 2 ^ (32 - n) * 2 ^ n := by
  have hsplit : 2 ^ 32 = 2 ^ (32 - n) * 2 ^ n := (pow_sub_mul_pow 2 hn).symm
  rw [hsplit, Nat.mul_mod_mul_right]

/-- What the right shift of a rotation leaves fits in the `n` low bits that the left shift freed. -/
theorem word_div_two_pow_lt (x : Word) {n : Nat} (hn : n ≤ 32) : x.toNat / 2 ^ (32 - n) < 2 ^ n := by
  apply Nat.div_lt_of_lt_mul
  rw [pow_sub_mul_pow 2 hn]
  exact x.isLt

/-- `rotl32` as the concatenation `x[31-n:0] ++ x[31:32-n]` (R12): the two shifted parts have no bit in common, so their
OR is their sum. -/
theorem rotl32_toNat_concat (x : Word) {n : Nat} (hn : n ≤ 32) :
    (rotl32 x n).toNat = x.toNat % 2 ^ (32 - n) * 2 ^ n + x.toNat / 2 ^ (32 - n) :=
  calc (rotl32 x n).toNat
      = (shl32 x n).toNat ||| (shr32 x (32 - n)).toNat := by
        rw [rotl32_eq_or, BitVec.toNat_or, shl32, shr32]
    _ = 2 ^ n * (x.toNat % 2 ^ (32 - n)) ||| x.toNat / 2 ^ (32 - n) := by
        rw [shl32_toNat, shr32_toNat, mul_two_pow_mod_word _ hn, Nat.mul_comm]
    _ = x.toNat % 2 ^ (32 - n) * 2 ^ n + x.toNat / 2 ^ (32 - n) := by
        rw [← Nat.two_pow_add_eq_or_of_lt (word_div_two_pow_lt x hn), Nat.mul_comm]

/-- `rotl32` in the integer arithmetic of R63. -/
theorem rotl32_toNat (x : Word) {n : Nat} (hn : n ≤ 32) : (rotl32 x n).toNat = natRotl x.toNat n := by
  rw [rotl32_toNat_concat x hn, natRotl, mul_two_pow_mod_word _ hn]

/-- Settles O9: the bit and integer laws of each operator, and the concatenation law of `rotl32`, which holds at every
amount up to 32. -/
theorem operatorsWrapModuloTwoToThe32 : Obligations.OperatorsWrapModuloTwoToThe32 := by
  refine ⟨fun a b i => ?bits, mul32_toNat, fun a n => ⟨shl32_toNat a n, shr32_toNat a n⟩, fun x n hn => ?rotl⟩
  case bits => exact ⟨xor32_getLsbD a b i, and32_getLsbD a b i, or32_getLsbD a b i⟩
  case rotl => exact ⟨rfl, rotl32_toNat_concat x (by omega)⟩

end Sys2Proof.Machine
end

section
/-! PROOFS. The layer below the statements about registers: each command and each edge as an equation, and the
width of what FIN publishes. -/

namespace Sys2Proof.Machine

/-! ### The commands and the words, case by case -/

@[simp] theorem exec_nop (s : State) : exec .nop s = .next s := rfl

theorem exec_cfg_of_legal {w : Byte} (hw : legalWidth w = true) (s : State) :
    exec (.cfg w) s = .next (configure w s) := if_pos hw

theorem exec_cfg_of_not_legal {w : Byte} (hw : legalWidth w = false) (s : State) :
    exec (.cfg w) s = .next (raise .cfg s) := if_neg (by simp [hw])

theorem exec_init_of_cfgv {s : State} (hv : s.cfgv = true) : exec .init s = .next (startSession s) :=
  whenConfigured_of_cfgv hv _

theorem exec_abs_of_cfgv {s : State} (hv : s.cfgv = true) (b : Byte) : exec (.abs b) s = .next (absorb b s) :=
  whenConfigured_of_cfgv hv _

theorem exec_fin_of_cfgv {s : State} (hv : s.cfgv = true) : exec .fin s = .next (publish s) :=
  whenConfigured_of_cfgv hv _

/-- INIT, ABS and FIN in an unconfigured block (R75). -/
theorem exec_of_not_cfgv {i : Instr} (hi : i = .init ∨ (∃ b, i = .abs b) ∨ i = .fin) {s : State}
    (hv : s.cfgv = false) : exec i s = .next (raise .nocfg s) := by
  rcases hi with rfl | ⟨b, rfl⟩ | rfl <;> exact whenConfigured_of_not_cfgv hv _

theorem execWord_of_decode {w : CmdWord} {i : Instr} (hd : decode w = .ok i) (s : State) :
    execWord w s = exec i s := by rw [execWord, hd]

theorem execWord_of_illegal {w : CmdWord} {c : Illegal} (hd : decode w = .error c) (s : State) :
    execWord w s = .next (raise .ill s) := by rw [execWord, hd]

theorem whenConfigured_total (s t : State) : ∃ u, whenConfigured s t = .next u := by
  cases hc : s.cfgv with
  | true => exact ⟨_, whenConfigured_of_cfgv hc t⟩
  | false => exact ⟨_, whenConfigured_of_not_cfgv hc t⟩

/-- No command faults and none is refused (R72). -/
theorem exec_total (i : Instr) (s : State) : ∃ t, exec i s = .next t := by
  cases i with
  | nop => exact ⟨_, exec_nop s⟩
  | cfg w =>
    cases hw : legalWidth w with
    | true => exact ⟨_, exec_cfg_of_legal hw s⟩
    | false => exact ⟨_, exec_cfg_of_not_legal hw s⟩
  | init => exact whenConfigured_total s _
  | abs b => exact whenConfigured_total s _
  | fin => exact whenConfigured_total s _

theorem execWord_total (w : CmdWord) (s : State) : ∃ t, execWord w s = .next t := by
  cases hd : decode w with
  | ok i => rw [execWord_of_decode hd]; exact exec_total i s
  | error c => exact ⟨_, execWord_of_illegal hd s⟩

/-- A command that R75 guards raises nothing but ERR_NOCFG, and only in an unconfigured block. -/
theorem whenConfigured_of_raised {s : State} {e : ErrKind}
    (h : (if s.cfgv then none else some ErrKind.nocfg) = some e) (t : State) :
    whenConfigured s t = .next (raise e s) := by
  cases hc : s.cfgv with
  | true => simp [hc] at h
  | false =>
    obtain rfl : ErrKind.nocfg = e := by simpa [hc] using h
    exact whenConfigured_of_not_cfgv hc t

/-- A word that raises an error does nothing but raise it (R72, R77). -/
theorem execWord_of_raisedBy {w : CmdWord} {s : State} {e : ErrKind} (h : raisedBy w s.toRegs = some e) :
    execWord w s = .next (raise e s) := by
  unfold raisedBy at h
  cases hd : decode w with
  | error c =>
    rw [hd] at h
    cases h
    exact execWord_of_illegal hd s
  | ok i =>
    rw [hd] at h
    rw [execWord_of_decode hd]
    cases i with
    | nop => cases h
    | cfg v =>
      cases hv : legalWidth v with
      | true => simp [hv] at h
      | false =>
        obtain rfl : ErrKind.cfg = e := by simpa [hv] using h
        exact exec_cfg_of_not_legal hv s
    | init => exact whenConfigured_of_raised h _
    | abs b => exact whenConfigured_of_raised h _
    | fin => exact whenConfigured_of_raised h _

/-! ### The edges, case by case -/

theorem step_of_rst {s : State} (hr : (pins s).rst = true) : step s = .next (resetEdge s) := if_pos hr

theorem step_of_accepts {s : State} (ha : accepts s = true) : step s = acceptWord s := by
  obtain ⟨hw, hr, -, -⟩ := (accepts_iff s).1 ha
  simp [step, hw, hr, ha]

theorem step_of_not_accepts {s : State} (hw : s.wasReset = true) (hr : (pins s).rst = false)
    (ha : accepts s = false) : step s = .next (quietEdge s) := by
  simp [step, hw, hr, ha]

/-- After a reset, `cmd_ready` is 1 exactly at an edge without `rst` at which no command executes (R18, R86). -/
theorem cmdReady_iff {s : State} (hw : s.wasReset = true) :
    cmdReady s = true ↔ (pins s).rst = false ∧ s.busy = 0 := by
  cases hr : (pins s).rst <;> simp [cmdReady, hr, hw]

/-! ### The outputs where they may be sampled -/

theorem outputsValid_iff (s : State) :
    outputsValid s = true ↔ s.wasReset = true ∧ (pins s).rst = false ∧ s.busy = 0 := by
  rw [outputsValid, Bool.and_eq_true]
  exact and_congr_right cmdReady_iff

section
variable {s : State} (hv : outputsValid s = true)
include hv

theorem cmdReady_of_valid : cmdReady s = true := (Bool.and_eq_true_iff.1 hv).2
theorem statusPort_of_valid : statusPort s = statusWord s.toRegs := if_pos hv
theorem resultPort_of_valid : resultPort s = s.result := if_pos hv
theorem errPort_of_valid : errPort s = errLine s.toRegs := if_pos hv

end

/-! ### The registers after an edge -/

section
variable {s t u : State} (h : step s = .next t)
include h

theorem regs_of_rst (hr : (pins s).rst = true) : t.toRegs = Regs.reset := by
  rw [step_of_rst hr] at h
  cases h
  rfl

/-- The registers after an accepting edge are those its word leaves. -/
theorem regs_of_word (ha : accepts s = true) (hu : execWord (pins s).cmd s = .next u) : t.toRegs = u.toRegs := by
  rw [step_of_accepts ha, acceptWord, hu] at h
  cases h
  rfl

/-- The registers after an edge that accepts a command are those the command leaves. -/
theorem regs_of_command {i : Instr} (hc : acceptedCommand s = some i) (hu : exec i s = .next u) :
    t.toRegs = u.toRegs := by
  obtain ⟨ha, hd⟩ := acceptedCommand_eq_some.1 hc
  exact regs_of_word h ha ((execWord_of_decode hd s).trans hu)

theorem regs_of_cfg {w : Byte} (hc : acceptedCommand s = some (.cfg w)) (hw : w = 2#8 ∨ w = 4#8 ∨ w = 8#8) :
    t.toRegs = (configure w s).toRegs :=
  regs_of_command h hc (exec_cfg_of_legal ((legalWidth_iff w).2 hw) s)

theorem regs_of_init (hc : acceptedCommand s = some .init) (hv : s.cfgv = true) :
    t.toRegs = (startSession s).toRegs :=
  regs_of_command h hc (exec_init_of_cfgv hv)

theorem regs_of_abs {b : Byte} (hc : acceptedCommand s = some (.abs b)) (hv : s.cfgv = true) :
    t.toRegs = (absorb b s).toRegs :=
  regs_of_command h hc (exec_abs_of_cfgv hv b)

theorem regs_of_fin (hc : acceptedCommand s = some .fin) (hv : s.cfgv = true) :
    t.toRegs = (publish s).toRegs :=
  regs_of_command h hc (exec_fin_of_cfgv hv)

end

/-! ### The width of a published value -/

/-- `mask(w) = 2^w - 1` as a number, at each of the sixteen values a WIDTH register can hold (R13). -/
theorem mask_toNat (w : BitVec 4) : (mask w).toNat = 2 ^ w.toNat - 1 := by
  revert w
  decide

/-- TRUNC keeps the low `w` bits (R66). -/
theorem trunc_toNat (v : Word) (w : BitVec 4) : (trunc v w).toNat = v.toNat % 2 ^ w.toNat := by
  rw [trunc, and32, BitVec.toNat_and, mask_toNat, Nat.and_two_pow_sub_one_eq_mod]

theorem digest_lt (o : FoldOrder) (w : BitVec 4) (m : MixState) : (digest o w m).toNat < 2 ^ w.toNat :=
  calc (digest o w m).toNat
      ≤ (trunc (fold o m) w).toNat := by rw [digest, BitVec.toNat_setWidth]; exact Nat.mod_le _ _
    _ < 2 ^ w.toNat := by rw [trunc_toNat]; exact Nat.mod_lt _ (Nat.two_pow_pos _)

/-- What FIN publishes fits the width (R26). -/
theorem finResult_lt (r : Regs) : (finResult r).toNat < 2 ^ r.width.toNat := by
  unfold finResult
  split
  · exact digest_lt _ _ _
  · exact Nat.two_pow_pos _

theorem finResult_of_empty {r : Regs} (h : r.ne = false) : finResult r = 0x00#8 := by simp [finResult, h]

end Sys2Proof.Machine
end

section
/-! PROOFS. What an edge writes, in six cases, and what every edge keeps: the relations of `RegsInv` and the session of
`HoldsSession`. An error flag is no part of either, so all edges that raise one, and the quiet ones, are one case. -/

namespace Sys2Proof.Machine

/-! ### Registers that differ in their error flags only -/

theorem AgreeButErrors.toMixState {r q : Regs} (h : AgreeButErrors r q) : r.toMixState = q.toMixState := by
  have eta : ∀ x : Regs, x.toMixState = ⟨x.acc, x.lane⟩ := fun _ => rfl
  rw [eta r, eta q, h.acc, h.lane]

theorem AgreeButErrors.finResult {r q : Regs} (h : AgreeButErrors r q) : finResult r = finResult q := by
  simp only [Machine.finResult, h.ne, h.width, h.toMixState]

theorem agreeButErrors_of_eq {r q : Regs} (h : r = q) : AgreeButErrors r q := by subst h; constructor <;> rfl

theorem agreeButErrors_raise (e : ErrKind) (s : State) : AgreeButErrors (raise e s).toRegs s.toRegs := by
  cases e <;> constructor <;> rfl

/-! ### The session over one edge -/

@[simp] theorem sessionAfter_nop (d : List Byte) : sessionAfter .nop d = d := rfl
@[simp] theorem sessionAfter_init (d : List Byte) : sessionAfter .init d = [] := rfl
@[simp] theorem sessionAfter_abs (b : Byte) (d : List Byte) : sessionAfter (.abs b) d = d ++ [b] := rfl
@[simp] theorem sessionAfter_fin (d : List Byte) : sessionAfter .fin d = d := rfl

theorem sessionAfterEdge_of_rst {s : State} (hr : (pins s).rst = true) (d : List Byte) :
    sessionAfterEdge s d = [] := if_pos hr

theorem sessionAfterEdge_of_none {s : State} (hr : (pins s).rst = false) (hc : acceptedCommand s = none)
    (d : List Byte) : sessionAfterEdge s d = d := by
  simp [sessionAfterEdge, hr, hc]

/-- An edge that accepts a command is one without `rst` (R83). -/
theorem rst_of_acceptedCommand {s : State} {i : Instr} (hc : acceptedCommand s = some i) : (pins s).rst = false := by
  obtain ⟨-, hr, -, -⟩ := (accepts_iff s).1 (acceptedCommand_eq_some.1 hc).1
  exact hr

theorem sessionAfterEdge_of_cfg {s : State} {w : Byte} (hc : acceptedCommand s = some (.cfg w)) (d : List Byte) :
    sessionAfterEdge s d = if legalWidth w then [] else d := by
  simp [sessionAfterEdge, rst_of_acceptedCommand hc, hc, sessionAfter]

/-- A configured block moves the session as its command says. -/
theorem sessionAfterEdge_of_cfgv {s : State} {i : Instr} (hc : acceptedCommand s = some i) (hv : s.cfgv = true)
    (d : List Byte) : sessionAfterEdge s d = sessionAfter i d := by
  cases i <;> simp [sessionAfterEdge, rst_of_acceptedCommand hc, hc, hv]

/-- A command other than CFG keeps the session of an unconfigured block (R75). -/
theorem sessionAfterEdge_of_not_cfgv {s : State} {i : Instr} (hc : acceptedCommand s = some i)
    (hi : ∀ w, i ≠ .cfg w) (hv : s.cfgv = false) (d : List Byte) : sessionAfterEdge s d = d := by
  cases i with
  | cfg w => exact absurd rfl (hi w)
  | _ => simp [sessionAfterEdge, rst_of_acceptedCommand hc, hc, hv]

theorem sessionAfterEdge_of_nop {s : State} (hc : acceptedCommand s = some .nop) (d : List Byte) :
    sessionAfterEdge s d = d := by
  simp [sessionAfterEdge, rst_of_acceptedCommand hc, hc]

/-! ### What an edge writes -/

/-- The six things an edge can do to the registers other than the error flags (R20 to R28): the ten cases of
`EdgeEffect` with all those in one that write none of these registers. -/
inductive EdgeWrite (s t : State) : Prop where
  | reset (rst : (pins s).rst = true) (regs : t.toRegs = Regs.reset)
  | configured (w : Byte) (cmd : acceptedCommand s = some (.cfg w)) (legal : w = 2#8 ∨ w = 4#8 ∨ w = 8#8)
      (regs : t.toRegs = (configure w s).toRegs)
  | started (cmd : acceptedCommand s = some .init) (cfgv : s.cfgv = true)
      (regs : t.toRegs = (startSession s).toRegs)
  | absorbed (b : Byte) (cmd : acceptedCommand s = some (.abs b)) (cfgv : s.cfgv = true)
      (regs : t.toRegs = (absorb b s).toRegs)
  | published (cmd : acceptedCommand s = some .fin) (cfgv : s.cfgv = true)
      (regs : t.toRegs = (publish s).toRegs)
  | kept (same : AgreeButErrors t.toRegs s.toRegs) (session : ∀ d, sessionAfterEdge s d = d)

theorem edgeWrite_of_step {s t : State} (h : step s = .next t) : EdgeWrite s t := by
  have raised : ∀ {e}, t.toRegs = (raise e s).toRegs → AgreeButErrors t.toRegs s.toRegs := by
    intro e regs
    rw [regs]
    exact agreeButErrors_raise e s
  cases edgeEffect_of_step h with
  | reset rst regs => exact .reset rst regs
  | quiet rst acc regs =>
    exact .kept (agreeButErrors_of_eq regs) (sessionAfterEdge_of_none rst (acceptedCommand_of_not_accepts acc))
  | illegal rst bad regs =>
    exact .kept (raised regs) (sessionAfterEdge_of_none rst (acceptedCommand_of_illegal bad))
  | nop rst cmd regs => exact .kept (agreeButErrors_of_eq regs) (sessionAfterEdge_of_nop cmd)
  | configured rst w cmd legal regs => exact .configured w cmd ((legalWidth_iff w).1 legal) regs
  | badWidth rst w cmd legal regs =>
    exact .kept (raised regs) (fun d => by simp [sessionAfterEdge_of_cfg cmd, legal])
  | unconfigured rst i which cmd cfgv regs =>
    refine .kept (raised regs) (sessionAfterEdge_of_not_cfgv cmd ?_ cfgv)
    rcases which with rfl | ⟨b, rfl⟩ | rfl <;> exact fun _ => Instr.noConfusion
  | started rst cmd cfgv regs => exact .started cmd cfgv regs
  | absorbed rst b cmd cfgv regs => exact .absorbed b cmd cfgv regs
  | published rst cmd cfgv regs => exact .published cmd cfgv regs

/-! ### The relations among the registers -/

theorem regsInv_reset : RegsInv Regs.reset where
  width_legal := .inl rfl
  cfgv_width := rfl
  result_range := by decide
  empty_mix _ := rfl
  empty_result _ := rfl
  unconfigured _ := ⟨rfl, rfl⟩
  done_current h := by cases h

theorem RegsInv.of_agree {r q : Regs} (h : RegsInv q) (a : AgreeButErrors r q) : RegsInv r where
  width_legal := by rw [a.width]; exact h.width_legal
  cfgv_width := by rw [a.cfgv, a.width]; exact h.cfgv_width
  result_range := by rw [a.result, a.width]; exact h.result_range
  empty_mix := by rw [a.ne, a.toMixState]; exact h.empty_mix
  empty_result := by rw [a.ne, a.result]; exact h.empty_result
  unconfigured := by rw [a.cfgv, a.ne, a.done]; exact h.unconfigured
  done_current := by rw [a.done, a.result, a.finResult]; exact h.done_current

/-- A session starts with the relations, whatever the registers it clears held. -/
theorem regsInv_startSession {s : State}
    (hw : s.width = 0#4 ∨ s.width = 2#4 ∨ s.width = 4#4 ∨ s.width = 8#4) (hc : s.cfgv = (s.width != 0#4)) :
    RegsInv (startSession s).toRegs where
  width_legal := hw
  cfgv_width := hc
  result_range := Nat.two_pow_pos _
  empty_mix _ := rfl
  empty_result _ := rfl
  unconfigured _ := ⟨rfl, rfl⟩
  done_current h := by cases h

theorem regsInv_configure {w : Byte} (hw : w = 2#8 ∨ w = 4#8 ∨ w = 8#8) (s : State) :
    RegsInv (configure w s).toRegs := by
  rcases hw with rfl | rfl | rfl
  · exact regsInv_startSession (.inr (.inl rfl)) rfl
  · exact regsInv_startSession (.inr (.inr (.inl rfl))) rfl
  · exact regsInv_startSession (.inr (.inr (.inr rfl))) rfl

theorem RegsInv.absorb {s : State} (h : RegsInv s.toRegs) (hv : s.cfgv = true) (b : Byte) :
    RegsInv (absorb b s).toRegs where
  width_legal := h.width_legal
  cfgv_width := h.cfgv_width
  result_range := h.result_range
  empty_mix hn := by simp at hn
  empty_result hn := by simp at hn
  unconfigured hc := by simp [hv] at hc
  done_current hd := by simp at hd

theorem RegsInv.publish {s : State} (h : RegsInv s.toRegs) (hv : s.cfgv = true) : RegsInv (publish s).toRegs where
  width_legal := h.width_legal
  cfgv_width := h.cfgv_width
  result_range := finResult_lt s.toRegs
  empty_mix := h.empty_mix
  empty_result hn := finResult_of_empty hn
  unconfigured hc := by simp [hv] at hc
  done_current _ := rfl

/-- Every edge keeps the relations among the registers (R24 to R28). -/
theorem RegsInv.step {s t : State} (hs : RegsInv s.toRegs) (h : step s = .next t) : RegsInv t.toRegs := by
  cases edgeWrite_of_step h with
  | reset rst regs => rw [regs]; exact regsInv_reset
  | configured w cmd legal regs => rw [regs]; exact regsInv_configure legal s
  | started cmd cfgv regs => rw [regs]; exact regsInv_startSession hs.width_legal hs.cfgv_width
  | absorbed b cmd cfgv regs => rw [regs]; exact hs.absorb cfgv b
  | published cmd cfgv regs => rw [regs]; exact hs.publish cfgv
  | kept same session => exact hs.of_agree same

theorem RegsInv.width_eq_zero_iff {r : Regs} (h : RegsInv r) : r.width = 0#4 ↔ r.cfgv = false := by
  rw [h.cfgv_width, bne_eq_false_iff_eq]

/-! ### The session of the registers -/

theorem absorbAll_concat (m : MixState) (d : List Byte) (b : Byte) :
    absorbAll m (d ++ [b]) = mix (absorbAll m d) b := by simp [absorbAll]

/-- What FIN publishes of a session is the hash of its bytes (R68, R69). -/
theorem HoldsSession.finResult {r : Regs} {d : List Byte} (h : HoldsSession r d) :
    finResult r = hashOf Config.foldOrder r.width d := by
  cases d with
  | nil => exact finResult_of_empty h.nonempty
  | cons b d => simp [Machine.finResult, hashOf, h.nonempty, h.mix]

theorem holdsSession_nil {r : Regs} (hm : r.toMixState = mixStart) (hn : r.ne = false) (hd : r.done = false) :
    HoldsSession r [] where
  mix := hm
  nonempty := hn
  current h := by simp [hd] at h

theorem HoldsSession.of_agree {r q : Regs} {d : List Byte} (h : HoldsSession q d) (a : AgreeButErrors r q) :
    HoldsSession r d where
  mix := by rw [a.toMixState]; exact h.mix
  nonempty := by rw [a.ne]; exact h.nonempty
  current := by rw [a.done, a.result, a.width]; exact h.current

theorem HoldsSession.absorb {s : State} {d : List Byte} (h : HoldsSession s.toRegs d) (b : Byte) :
    HoldsSession (absorb b s).toRegs (d ++ [b]) where
  mix := by rw [absorb_mixState, h.mix, absorbAll_concat]
  nonempty := by simp
  current hd := by simp at hd

theorem HoldsSession.publish {s : State} {d : List Byte} (h : HoldsSession s.toRegs d) :
    HoldsSession (publish s).toRegs d where
  mix := h.mix
  nonempty := h.nonempty
  current _ := h.finResult

/-- Every edge moves the session as its command says (R59, R60, R67, R68, R83). -/
theorem HoldsSession.step {s t : State} {d : List Byte} (hs : HoldsSession s.toRegs d) (h : step s = .next t) :
    HoldsSession t.toRegs (sessionAfterEdge s d) := by
  cases edgeWrite_of_step h with
  | reset rst regs =>
    rw [regs, sessionAfterEdge_of_rst rst]
    exact holdsSession_nil rfl rfl rfl
  | configured w cmd legal regs =>
    rw [regs, sessionAfterEdge_of_cfg cmd, if_pos ((legalWidth_iff w).2 legal)]
    exact holdsSession_nil rfl rfl rfl
  | started cmd cfgv regs =>
    rw [regs, sessionAfterEdge_of_cfgv cmd cfgv, sessionAfter_init]
    exact holdsSession_nil rfl rfl rfl
  | absorbed b cmd cfgv regs =>
    rw [regs, sessionAfterEdge_of_cfgv cmd cfgv, sessionAfter_abs]
    exact hs.absorb b
  | published cmd cfgv regs =>
    rw [regs, sessionAfterEdge_of_cfgv cmd cfgv, sessionAfter_fin]
    exact hs.publish
  | kept same session =>
    rw [session]
    exact hs.of_agree same

end Sys2Proof.Machine
end

section
/-! PROOFS. Which registers are written, by which edges (O21 to O25), acceptance (O37), the STATUS word (O26), the
MixState behind the ports (O28) and the reset values (O34). -/

namespace Sys2Proof.Machine

section
variable {s t : State} (h : step s = .next t)
include h

/-- Only reset and a valid CFG write WIDTH or CFGV (R24, R25). -/
theorem config_change (hne : t.width ≠ s.width ∨ t.cfgv ≠ s.cfgv) :
    (pins s).rst = true ∨ ∃ w, acceptedCommand s = some (.cfg w) ∧ (w = 2#8 ∨ w = 4#8 ∨ w = 8#8) := by
  cases edgeWrite_of_step h with
  | reset rst regs => exact .inl rst
  | configured w cmd legal regs => exact .inr ⟨w, cmd, legal⟩
  | started cmd cfgv regs | absorbed b cmd cfgv regs | published cmd cfgv regs => simp [regs] at hne
  | kept same session => simp [same.width, same.cfgv] at hne

/-- Only reset, INIT, a valid CFG and FIN write RESULT (R26). -/
theorem result_change (hne : t.result ≠ s.result) :
    (pins s).rst = true ∨ (acceptedCommand s = some .init ∧ s.cfgv = true) ∨
    (∃ w, acceptedCommand s = some (.cfg w) ∧ (w = 2#8 ∨ w = 4#8 ∨ w = 8#8)) ∨
    (acceptedCommand s = some .fin ∧ s.cfgv = true) := by
  cases edgeWrite_of_step h with
  | reset rst regs => exact .inl rst
  | started cmd cfgv regs => exact .inr (.inl ⟨cmd, cfgv⟩)
  | configured w cmd legal regs => exact .inr (.inr (.inl ⟨w, cmd, legal⟩))
  | published cmd cfgv regs => exact .inr (.inr (.inr ⟨cmd, cfgv⟩))
  | absorbed b cmd cfgv regs => simp [regs] at hne
  | kept same session => exact absurd same.result hne

/-- Only reset, INIT, a valid CFG and ABS write NE (R27). -/
theorem ne_change (hne : t.ne ≠ s.ne) :
    (pins s).rst = true ∨ (acceptedCommand s = some .init ∧ s.cfgv = true) ∨
    (∃ w, acceptedCommand s = some (.cfg w) ∧ (w = 2#8 ∨ w = 4#8 ∨ w = 8#8)) ∨
    (∃ b, acceptedCommand s = some (.abs b) ∧ s.cfgv = true) := by
  cases edgeWrite_of_step h with
  | reset rst regs => exact .inl rst
  | started cmd cfgv regs => exact .inr (.inl ⟨cmd, cfgv⟩)
  | configured w cmd legal regs => exact .inr (.inr (.inl ⟨w, cmd, legal⟩))
  | absorbed b cmd cfgv regs => exact .inr (.inr (.inr ⟨b, cmd, cfgv⟩))
  | published cmd cfgv regs => simp [regs] at hne
  | kept same session => exact absurd same.ne hne

/-- An edge that NOP or an error-raising word is offered to keeps DONE, whether it accepts the word or not (R28). -/
theorem done_of_nop_or_raised (hr : (pins s).rst = false)
    (hw : raisedBy (pins s).cmd s.toRegs ≠ none ∨ acceptedCommand s = some .nop) : t.done = s.done := by
  rcases step_cases h with ⟨hr', -⟩ | ⟨-, ha, -⟩ | ⟨-, -, rfl⟩
  · simp [hr] at hr'
  · rcases hw with hw | hc
    · obtain ⟨e, he⟩ := Option.ne_none_iff_exists'.1 hw
      rw [regs_of_word h ha (execWord_of_raisedBy he), raise_done]
    · rw [regs_of_command h hc (exec_nop s)]
  · rfl

end

/-- Settles O21: the writers from the registers each edge leaves, the range from the kept relations. -/
theorem widthWriters : Obligations.WidthWriters := by
  intro s t h
  refine ⟨fun hr => ?reset, fun w hc hw => ?cfg, fun hne => config_change h (.inl hne), fun hs => ?inv⟩
  case reset => rw [regs_of_rst h hr]; rfl
  case cfg => rw [regs_of_cfg h hc hw]; exact ⟨rfl, rfl⟩
  case inv =>
    have ht : RegsInv t.toRegs := hs.regs.step h
    exact ⟨ht.width_legal, ht.width_eq_zero_iff⟩

/-- Settles O22: as for WIDTH; the error half is the check of R75 when it fails. -/
theorem cfgvWriters : Obligations.CfgvWriters := by
  refine ⟨fun s t h => ⟨fun hr => ?reset, fun w hc hw => ?cfg, fun hne => config_change h (.inr hne),
      fun hs => ?inv⟩,
    fun s b hv => ?raises⟩
  case reset => rw [regs_of_rst h hr]; rfl
  case cfg => rw [regs_of_cfg h hc hw]; rfl
  case inv => exact (hs.regs.step h).cfgv_width
  case raises =>
    exact ⟨exec_of_not_cfgv (.inl rfl) hv, exec_of_not_cfgv (.inr (.inl ⟨b, rfl⟩)) hv,
      exec_of_not_cfgv (.inr (.inr rfl)) hv⟩

/-- Settles O23: the writers from the registers each edge leaves, the range from the kept relations. -/
theorem resultWriters : Obligations.ResultWriters := by
  intro s t h
  refine ⟨fun hr => ?reset, fun hc hv => ?init, fun w hc hw => ?cfg, fun hc hv => ?fin, result_change h,
    fun hs => (hs.regs.step h).result_range⟩
  case reset => rw [regs_of_rst h hr]; rfl
  case init => rw [regs_of_init h hc hv, startSession_result]
  case cfg => rw [regs_of_cfg h hc hw, configure_result]
  case fin => rw [regs_of_fin h hc hv]; rfl

/-- Settles O24: the writers from the registers each edge leaves; FIN of an empty session publishes 0. -/
theorem neWriters : Obligations.NeWriters := by
  intro s t h
  refine ⟨fun hr => ?reset, fun hc hv => ?init, fun w hc hw => ?cfg, fun b hc hv => ?abs, ne_change h,
    fun hc hv hn => ?fin⟩
  case reset => rw [regs_of_rst h hr]; rfl
  case init => rw [regs_of_init h hc hv, startSession_ne]
  case cfg => rw [regs_of_cfg h hc hw, configure_ne]
  case abs => rw [regs_of_abs h hc hv, absorb_ne]
  case fin => rw [regs_of_fin h hc hv, publish_result, finResult_of_empty hn]

/-- Settles O25: the writers from the registers each edge leaves; that RESULT is current from the kept relations, that
it is the session's hash from the session every edge carries on. -/
theorem doneWriters : Obligations.DoneWriters := by
  intro s t h
  refine ⟨fun hr => ?reset, fun hc hv => ?init, fun w hc hw => ?cfg, fun b hc hv => ?abs, fun hc hv => ?fin,
    done_of_nop_or_raised h, fun hs => (hs.regs.step h).done_current, fun d hs => (hs.step h).current⟩
  case reset => rw [regs_of_rst h hr]; rfl
  case init => rw [regs_of_init h hc hv, startSession_done]
  case cfg => rw [regs_of_cfg h hc hw, configure_done]
  case abs => rw [regs_of_abs h hc hv, absorb_done]
  case fin => rw [regs_of_fin h hc hv, publish_done]

/-- Settles O37: an edge accepts exactly when `cmd_ready` is 1 and a word is offered; then it is the word's execution
and the pins move on, else it is a quiet edge. -/
theorem acceptanceHandshake : Obligations.AcceptanceHandshake := by
  intro s hw
  have ready : accepts s = true ↔ (pins s).rst = false ∧ (pins s).cmdValid = true ∧ cmdReady s = true := by
    rw [accepts_iff, cmdReady_iff hw]
    tauto
  refine ⟨ready, fun ha => ?accepted, fun hr hb => ?ignored⟩
  case accepted =>
    obtain ⟨t, ht⟩ := execWord_total (pins s).cmd s
    obtain ⟨-, -, hinputs, -, -⟩ := execWord_env ht
    refine ⟨t, acceptEdge t, ht, ?_, rfl, congrArg List.tail hinputs⟩
    rw [step_of_accepts ha, acceptWord, ht, andThen_next]
  case ignored =>
    have ha : accepts s = false := by rw [← Bool.not_eq_true, ready]; simp [hb]
    exact ⟨quietEdge s, step_of_not_accepts hw hr ha, rfl, rfl⟩

/-! ### The STATUS word -/

/-- Bits 5:0 of the STATUS word. -/
def flagBits (r : Regs) : BitVec 6 :=
  flagBit r.errIll ++ flagBit r.errNocfg ++ flagBit r.errCfg ++ flagBit r.done ++ flagBit r.ne ++ flagBit r.cfgv

/-- The STATUS word by its four fields, each the head of what is left of it (R29). -/
theorem statusWord_eq_fields (r : Regs) : statusWord r = 0#4 ++ (r.width ++ (0#2 ++ flagBits r)) := by
  simp only [statusWord, flagBits, BitVec.append_assoc, BitVec.cast_eq]

theorem statusWord_reservedHigh (r : Regs) : (statusWord r).extractLsb' 12 4 = 0#4 := by
  rw [statusWord_eq_fields]
  exact BitVec.extractLsb'_append_eq_left

theorem statusWord_width (r : Regs) : (statusWord r).extractLsb' 8 4 = r.width := by
  rw [statusWord_eq_fields, BitVec.extractLsb'_append_eq_of_add_le (by decide)]
  exact BitVec.extractLsb'_append_eq_left

theorem statusWord_reservedLow (r : Regs) : (statusWord r).extractLsb' 6 2 = 0#2 := by
  rw [statusWord_eq_fields, BitVec.extractLsb'_append_eq_of_add_le (by decide),
    BitVec.extractLsb'_append_eq_of_add_le (by decide)]
  exact BitVec.extractLsb'_append_eq_left

/-- The six flags of the STATUS word, from bit 0 up (R29). -/
theorem statusWord_flags (r : Regs) :
    (statusWord r).getLsbD 0 = r.cfgv ∧ (statusWord r).getLsbD 1 = r.ne ∧ (statusWord r).getLsbD 2 = r.done ∧
    (statusWord r).getLsbD 3 = r.errCfg ∧ (statusWord r).getLsbD 4 = r.errNocfg ∧
    (statusWord r).getLsbD 5 = r.errIll := by
  simp only [statusWord, flagBit, BitVec.getLsbD_append]
  simp

/-- Settles O26: the flags, then the three fields above them; the reset word is computed. -/
theorem statusWordLayout : Obligations.StatusWordLayout := by
  refine ⟨fun r => ?layout, by decide⟩
  obtain ⟨cfgv, ne, done, errCfg, errNocfg, errIll⟩ := statusWord_flags r
  exact ⟨cfgv, ne, done, errCfg, errNocfg, errIll, statusWord_reservedLow r, statusWord_width r,
    statusWord_reservedHigh r⟩

/-- Settles O28: whether the outputs are valid depends on the reset history, the pins and busy alone, and what they show
then are views of the registers beside the MixState. -/
theorem mixStateHasNoPort : Obligations.MixStateHasNoPort := by
  intro s m hv
  have hv' : outputsValid { s with toMixState := m } = true := (outputsValid_iff _).2 ((outputsValid_iff s).1 hv)
  refine ⟨?ready, ?status, ?result, ?err⟩
  case ready => rw [cmdReady_of_valid hv, cmdReady_of_valid hv']
  case status => rw [statusPort_of_valid hv, statusPort_of_valid hv']; rfl
  case result => rw [resultPort_of_valid hv, resultPort_of_valid hv']
  case err => rw [errPort_of_valid hv, errPort_of_valid hv']; rfl

/-- Settles O34: `State.reset` holds the values of R35 as they are printed. -/
theorem resetValues : Obligations.ResetValues :=
  ⟨rfl, rfl, rfl, rfl, rfl, rfl, rfl, rfl, rfl, rfl, rfl⟩

end Sys2Proof.Machine
end

section
/-! PROOFS. Words held until they are accepted (O40): what a word does depends on the registers alone, and a held word
waits through quiet edges for the edge that accepts it. -/

namespace Sys2Proof.Machine

/-! ### A word reads and writes the registers alone -/

/-- `e` with the registers `r`: the pins, the busy condition, the free values and the reset history are those of `e`. -/
def State.withRegs (e : State) (r : Regs) : State := { e with toRegs := r }

theorem withRegs_of_eq {e : State} {r : Regs} (h : e.toRegs = r) : e.withRegs r = e := by
  subst h
  rfl

theorem raise_withRegs (k : ErrKind) (s e : State) :
    raise k (e.withRegs s.toRegs) = e.withRegs (raise k s).toRegs := by
  cases k <;> rfl

theorem whenConfigured_withRegs (s t e : State) :
    whenConfigured (e.withRegs s.toRegs) (e.withRegs t.toRegs) =
      andThen (whenConfigured s t) (fun u => .next (e.withRegs u.toRegs)) := by
  cases hc : s.cfgv with
  | true => rw [whenConfigured_of_cfgv hc, whenConfigured_of_cfgv (s := e.withRegs s.toRegs) hc, andThen_next]
  | false =>
    rw [whenConfigured_of_not_cfgv hc, whenConfigured_of_not_cfgv (s := e.withRegs s.toRegs) hc, andThen_next,
      raise_withRegs]

/-- A command does the same to the same registers, whatever the rest of the state holds. -/
theorem exec_withRegs (i : Instr) (s e : State) :
    exec i (e.withRegs s.toRegs) = andThen (exec i s) (fun t => .next (e.withRegs t.toRegs)) := by
  cases i with
  | nop => rfl
  | cfg w =>
    cases hw : legalWidth w with
    | true => rw [exec_cfg_of_legal hw, exec_cfg_of_legal hw]; rfl
    | false => rw [exec_cfg_of_not_legal hw, exec_cfg_of_not_legal hw, andThen_next, raise_withRegs]
  | init => exact whenConfigured_withRegs s (startSession s) e
  | abs b => exact whenConfigured_withRegs s (absorb b s) e
  | fin => exact whenConfigured_withRegs s (publish s) e

theorem execWord_withRegs (w : CmdWord) (s e : State) :
    execWord w (e.withRegs s.toRegs) = andThen (execWord w s) (fun t => .next (e.withRegs t.toRegs)) := by
  cases hd : decode w with
  | ok i => rw [execWord_of_decode hd, execWord_of_decode hd, exec_withRegs]
  | error c => rw [execWord_of_illegal hd, execWord_of_illegal hd, andThen_next, raise_withRegs]

/-- A word does to `e` what it does to any state with the same registers. -/
theorem execWord_of_toRegs_eq {w : CmdWord} {e s u : State} (hr : e.toRegs = s.toRegs)
    (hu : execWord w s = .next u) : execWord w e = .next (e.withRegs u.toRegs) := by
  have h := execWord_withRegs w s e
  rwa [withRegs_of_eq hr, hu, andThen_next] at h

theorem execWords_withRegs (ws : List CmdWord) (s e : State) :
    execWords ws (e.withRegs s.toRegs) = andThen (execWords ws s) (fun t => .next (e.withRegs t.toRegs)) := by
  induction ws generalizing s with
  | nil => rfl
  | cons w ws ih =>
    obtain ⟨t, ht⟩ := execWord_total w s
    simp only [execWords, execWord_withRegs, ht, andThen_next, ih]

/-- From states with the same registers, a list of words leads to states with the same registers. -/
theorem execWords_of_toRegs_eq {ws : List CmdWord} {e s u : State} (hr : e.toRegs = s.toRegs)
    (hu : execWords ws e = .next u) : ∃ v, execWords ws s = .next v ∧ u.toRegs = v.toRegs := by
  rw [← withRegs_of_eq hr, execWords_withRegs] at hu
  obtain ⟨v, hv, hn⟩ := andThen_eq_next hu
  cases hn
  exact ⟨v, hv, rfl⟩

/-! ### Several edges -/

theorem edges_add (m n : Nat) (s : State) : edges (m + n) s = andThen (edges m s) (edges n) := by
  induction m generalizing s with
  | zero => rw [Nat.zero_add]; rfl
  | succ m ih =>
    rw [Nat.succ_add]
    unfold edges
    cases step s with
    | next t => exact ih t
    | fault r => rfl
    | refused r => rfl

/-- The state `k` quiet edges later: the pins move on, and a command in flight comes `k` edges closer to its end. -/
def quietEdges (k : Nat) (s : State) : State :=
  { s with busy := s.busy - k, inputs := s.inputs.drop k, draws := s.draws + k }

@[simp] theorem quietEdges_toRegs (k : Nat) (s : State) : (quietEdges k s).toRegs = s.toRegs := rfl
@[simp] theorem quietEdges_busy (k : Nat) (s : State) : (quietEdges k s).busy = s.busy - k := rfl
@[simp] theorem quietEdges_wasReset (k : Nat) (s : State) : (quietEdges k s).wasReset = s.wasReset := rfl
@[simp] theorem quietEdges_inputs (k : Nat) (s : State) : (quietEdges k s).inputs = s.inputs.drop k := rfl
@[simp] theorem quietEdges_stalls (k : Nat) (s : State) : (quietEdges k s).stalls = s.stalls := rfl

theorem quietEdges_quietEdge (k : Nat) (s : State) : quietEdges k (quietEdge s) = quietEdges (k + 1) s := by
  simp [quietEdges, quietEdge, Nat.sub_sub, Nat.add_assoc, Nat.add_comm 1 k]

/-- If `rst` stays 0 for `k + 1` edges, it is 0 now and stays 0 for `k` edges after this one. -/
theorem rst_of_take_succ {k : Nat} {s : State} (hr : ∀ p ∈ s.inputs.take (k + 1), p.rst = false) :
    (pins s).rst = false ∧ ∀ p ∈ s.inputs.tail.take k, p.rst = false := by
  unfold pins
  cases hi : s.inputs with
  | nil => simp [Pins.idle]
  | cons p ps => simpa [hi] using hr

/-- While a command executes, edges without `rst` are quiet (R86). -/
theorem edges_of_busy {k : Nat} {s : State} (hw : s.wasReset = true) (hk : k ≤ s.busy)
    (hr : ∀ p ∈ s.inputs.take k, p.rst = false) : edges k s = .next (quietEdges k s) := by
  induction k generalizing s with
  | zero => rfl
  | succ k ih =>
    obtain ⟨hnow, hlater⟩ := rst_of_take_succ hr
    have ha : accepts s = false := by
      rw [← Bool.not_eq_true, accepts_iff]
      omega
    have hbusy : k ≤ s.busy - 1 := Nat.le_sub_one_of_lt hk
    rw [edges, step_of_not_accepts hw hnow ha, andThen_next, ih (s := quietEdge s) hw hbusy hlater,
      quietEdges_quietEdge]

/-- A word offered to a block that has been reset and is not busy is accepted (R18). -/
theorem step_of_offer {w : CmdWord} {later : List Pins} {s u : State} (hw : s.wasReset = true) (hb : s.busy = 0)
    (hi : s.inputs = Pins.offer w :: later) (hu : execWord w s = .next u) : step s = .next (acceptEdge u) := by
  have hpins : pins s = Pins.offer w := by rw [pins, hi, List.headD_cons]
  have ha : accepts s = true := by
    rw [accepts_iff, hpins]
    exact ⟨hw, rfl, rfl, hb⟩
  rw [step_of_accepts ha, acceptWord, hpins, Pins.offer, hu, andThen_next]

/-- Through the edges that do not accept it, a held word is offered without `rst`. -/
theorem rst_of_mem_take_heldWord {n : Nat} {w : CmdWord} {later : List Pins} {p : Pins}
    (hp : p ∈ (heldWord n w ++ later).take n) : p.rst = false := by
  obtain ⟨-, rfl⟩ : n ≠ 0 ∧ p = Pins.offer w := by simpa [heldWord, List.take_append] using hp
  rfl

theorem drop_heldWord (n : Nat) (w : CmdWord) (later : List Pins) :
    (heldWord n w ++ later).drop n = Pins.offer w :: later := by
  simp [heldWord, List.drop_append]

/-- A word held to a block that has been reset is accepted at the edge after its busy ones, and takes effect there on
the registers it found (R44, R86). -/
theorem edges_of_heldWord {w : CmdWord} {later : List Pins} {s : State} (hw : s.wasReset = true)
    (hi : s.inputs = heldWord s.busy w ++ later) :
    ∃ t u, edges (s.busy + 1) s = .next t ∧ execWord w s = .next u ∧ t.toRegs = u.toRegs ∧
      t.wasReset = true ∧ t.busy = stallOf s.stalls ∧ t.stalls = s.stalls.tail ∧ t.inputs = later := by
  have hquiet : edges s.busy s = .next (quietEdges s.busy s) :=
    edges_of_busy hw le_rfl fun p hp => rst_of_mem_take_heldWord (hi ▸ hp)
  have hinputs : (quietEdges s.busy s).inputs = Pins.offer w :: later := by
    rw [quietEdges_inputs, hi, drop_heldWord]
  obtain ⟨u, hu⟩ := execWord_total w s
  have heff := execWord_of_toRegs_eq (quietEdges_toRegs s.busy s) hu
  have hstep := step_of_offer (s := quietEdges s.busy s) hw (Nat.sub_self _) hinputs heff
  refine ⟨acceptEdge ((quietEdges s.busy s).withRegs u.toRegs), u, ?edges, hu, rfl, hw, rfl, rfl,
    congrArg List.tail hinputs⟩
  case edges => rw [edges_add, hquiet, andThen_next, edges, hstep, andThen_next, edges]

/-- Settles O40, by induction on the words: the edge that accepts one leaves the block busy for the drawn number of
edges, and what the host still drives is the schedule of the words that remain. -/
theorem heldWordsTakeEffectInOrder : Obligations.HeldWordsTakeEffectInOrder := by
  intro ws
  induction ws with
  | nil => exact fun s rest _ hi => ⟨0, s, s, rfl, rfl, rfl, hi⟩
  | cons w ws ih =>
    intro s rest hw hi
    rw [schedule, List.append_assoc] at hi
    obtain ⟨t, u, ht, hu, hregs, htw, hbusy, hstalls, hinputs⟩ := edges_of_heldWord hw hi
    rw [← hbusy, ← hstalls] at hinputs
    obtain ⟨n, t', u', ht', hu', hregs', hrest⟩ := ih t rest htw hinputs
    obtain ⟨v, hv, huv⟩ := execWords_of_toRegs_eq hregs hu'
    refine ⟨s.busy + 1 + n, t', v, ?_, ?_, hregs'.trans huv, hrest⟩
    · rw [edges_add, ht, andThen_next, ht']
    · rw [execWords, hu, andThen_next, hv]

end Sys2Proof.Machine
end

section
/-! PROOFS. The encoding (spec/30_encoding.md): a command word by its fields, the decoder as the inverse of the encoder,
the opcode map, and how the 65536 words split; then O2 to O5. -/

namespace Sys2Proof.Machine

/-! ### The fields of a word (R50) -/

section
variable (op z : BitVec 4) (imm : Byte)

@[simp] theorem opField_assembleFields : opField (assembleFields op z imm) = op := by
  rw [opField, assembleFields, BitVec.extractLsb'_append_eq_of_le (by decide)]
  exact BitVec.extractLsb'_append_eq_left

@[simp] theorem zField_assembleFields : zField (assembleFields op z imm) = z := by
  rw [zField, assembleFields, BitVec.extractLsb'_append_eq_of_le (by decide)]
  exact BitVec.extractLsb'_append_eq_right

@[simp] theorem imm8_assembleFields : imm8 (assembleFields op z imm) = imm := BitVec.extractLsb'_append_eq_right

end

/-- A word is its high byte, `OP` and `Z`, above its low byte, `IMM8`. -/
theorem word_eq_append_iff (cmd : CmdWord) (hi lo : Byte) :
    cmd = hi ++ lo ↔ cmd.extractLsb' 8 8 = hi ∧ lo = cmd.extractLsb' 0 8 := by
  constructor
  · rintro rfl
    exact ⟨BitVec.extractLsb'_append_eq_left, BitVec.extractLsb'_append_eq_right.symm⟩
  · rintro ⟨rfl, rfl⟩
    exact (BitVec.extractLsb'_append_extractLsb' (w := 8) (len := 8)).symm

/-! ### The decoder is the inverse of the encoder (R54) -/

theorem encode_of_decode {cmd : CmdWord} {i : Instr} (h : decode cmd = .ok i) : encode i = cmd := by
  unfold decode at h
  split_ifs at h with hnop hcfg hinit habs hfin <;> cases h
  · exact hnop.symm
  · exact ((word_eq_append_iff cmd 0x10#8 _).2 ⟨hcfg, rfl⟩).symm
  · exact hinit.symm
  · exact ((word_eq_append_iff cmd 0x30#8 _).2 ⟨habs, rfl⟩).symm
  · exact hfin.symm

/-- A word with high byte `0x10` is no word above CFG in the decoder's list. -/
theorem decode_of_cfg {cmd : CmdWord} (h : cmd.extractLsb' 8 8 = 0x10#8) : decode cmd = .ok (.cfg (imm8 cmd)) := by
  have hnop : cmd ≠ 0x0000#16 := by rintro rfl; exact absurd h (by decide)
  rw [decode, if_neg hnop, if_pos h]

/-- A word with high byte `0x30` is no word above ABS in the decoder's list. -/
theorem decode_of_abs {cmd : CmdWord} (h : cmd.extractLsb' 8 8 = 0x30#8) : decode cmd = .ok (.abs (imm8 cmd)) := by
  have hnop : cmd ≠ 0x0000#16 := by rintro rfl; exact absurd h (by decide)
  have hcfg : cmd.extractLsb' 8 8 ≠ 0x10#8 := by rw [h]; decide
  have hinit : cmd ≠ 0x2000#16 := by rintro rfl; exact absurd h (by decide)
  rw [decode, if_neg hnop, if_neg hcfg, if_neg hinit, if_pos h]

theorem decode_encode (i : Instr) : decode (encode i) = .ok i := by
  cases i with
  | nop => rfl
  | cfg w =>
    obtain ⟨hhi, -⟩ := (word_eq_append_iff (encode (.cfg w)) 0x10#8 w).1 rfl
    rw [decode_of_cfg hhi, encode, imm8_assembleFields]
  | init => rfl
  | abs b =>
    obtain ⟨hhi, -⟩ := (word_eq_append_iff (encode (.abs b)) 0x30#8 b).1 rfl
    rw [decode_of_abs hhi, encode, imm8_assembleFields]
  | fin => rfl

/-- The words of a command: exactly one, the encoder's. -/
theorem decode_eq_ok_iff {cmd : CmdWord} {i : Instr} : decode cmd = .ok i ↔ cmd = encode i :=
  ⟨fun h => (encode_of_decode h).symm, fun h => h ▸ decode_encode i⟩

theorem encode_injective : Function.Injective encode := fun i j h =>
  Except.ok.inj ((decode_encode i).symm.trans (h ▸ decode_encode j))

/-- The words R54 gives to each command. -/
theorem decode_eq_ok_cases (cmd : CmdWord) (x : Byte) :
    (decode cmd = .ok .nop ↔ cmd = 0x0000#16) ∧
    (decode cmd = .ok (.cfg x) ↔ cmd.extractLsb' 8 8 = 0x10#8 ∧ x = cmd.extractLsb' 0 8) ∧
    (decode cmd = .ok .init ↔ cmd = 0x2000#16) ∧
    (decode cmd = .ok (.abs x) ↔ cmd.extractLsb' 8 8 = 0x30#8 ∧ x = cmd.extractLsb' 0 8) ∧
    (decode cmd = .ok .fin ↔ cmd = 0x4000#16) :=
  ⟨decode_eq_ok_iff, decode_eq_ok_iff.trans (word_eq_append_iff cmd 0x10#8 x), decode_eq_ok_iff,
    decode_eq_ok_iff.trans (word_eq_append_iff cmd 0x30#8 x), decode_eq_ok_iff⟩

theorem illegal_of_forall_ne {cmd : CmdWord} (h : ∀ i, decode cmd ≠ .ok i) : ∃ c, decode cmd = .error c := by
  cases hd : decode cmd with
  | ok i => exact absurd hd (h i)
  | error c => exact ⟨c, rfl⟩

/-! ### What the fields of a legal word are -/

theorem opField_encode_lt (i : Instr) : (opField (encode i)).toNat < 5 := by
  cases i <;> simp [encode]

theorem zField_encode (i : Instr) : zField (encode i) = 0#4 := by
  cases i <;> simp [encode]

theorem imm8_encode_eq_zero {i : Instr}
    (hop : opField (encode i) = 0x0#4 ∨ opField (encode i) = 0x2#4 ∨ opField (encode i) = 0x4#4) :
    imm8 (encode i) = 0#8 := by
  cases i <;> simp [encode] at hop ⊢

theorem illegal_of_reserved {cmd : CmdWord} (hop : 5 ≤ (opField cmd).toNat) : ∃ c, decode cmd = .error c := by
  refine illegal_of_forall_ne fun i hd => ?_
  have hlt := opField_encode_lt i
  rw [encode_of_decode hd] at hlt
  exact absurd hop (Nat.not_le.2 hlt)

/-! ### The opcode map (R52) -/

theorem and_fullMask (cmd : CmdWord) : cmd &&& 0xFFFF#16 = cmd := BitVec.and_allOnes

theorem and_highMask_eq_iff (cmd : CmdWord) (hi : Byte) :
    cmd &&& 0xFF00#16 = hi ++ 0#8 ↔ cmd.extractLsb' 8 8 = hi := by
  obtain ⟨h, l, rfl⟩ : ∃ h l : Byte, cmd = h ++ l := ⟨_, _, (word_eq_append_iff cmd _ _).2 ⟨rfl, rfl⟩⟩
  have hmask : 0xFF00#16 = BitVec.allOnes 8 ++ 0#8 := by decide
  rw [hmask, BitVec.and_append, BitVec.and_allOnes, BitVec.and_zero, BitVec.append_left_inj,
    BitVec.extractLsb'_append_eq_left]

/-- The five matches and masks of R52. -/
theorem maskedWord_iff_decode (cmd : CmdWord) (x : Byte) :
    (decode cmd = .ok .nop ↔ cmd &&& 0xFFFF#16 = 0x0000#16) ∧
    (decode cmd = .ok (.cfg x) ↔ cmd &&& 0xFF00#16 = 0x1000#16 ∧ x = cmd.extractLsb' 0 8) ∧
    (decode cmd = .ok .init ↔ cmd &&& 0xFFFF#16 = 0x2000#16) ∧
    (decode cmd = .ok (.abs x) ↔ cmd &&& 0xFF00#16 = 0x3000#16 ∧ x = cmd.extractLsb' 0 8) ∧
    (decode cmd = .ok .fin ↔ cmd &&& 0xFFFF#16 = 0x4000#16) := by
  have h10 : cmd &&& 0xFF00#16 = 0x1000#16 ↔ cmd.extractLsb' 8 8 = 0x10#8 := and_highMask_eq_iff cmd 0x10#8
  have h30 : cmd &&& 0xFF00#16 = 0x3000#16 ↔ cmd.extractLsb' 8 8 = 0x30#8 := and_highMask_eq_iff cmd 0x30#8
  rw [and_fullMask, h10, h30]
  exact decode_eq_ok_cases cmd x

/-- A row of the opcode map covers the words of its own command alone (R52). -/
theorem decode_of_covers {r : OpcodeRow} {cmd : CmdWord} (hr : r ∈ opcodeTable) (hc : r.covers cmd = true) :
    ∃ i, i.row = r ∧ decode cmd = .ok i := by
  obtain ⟨hnop, hcfg, hinit, habs, hfin⟩ := maskedWord_iff_decode cmd (imm8 cmd)
  simp only [opcodeTable, List.mem_cons, List.not_mem_nil, or_false] at hr
  have hc' : cmd &&& r.maskBits = r.matchBits := beq_iff_eq.1 hc
  rcases hr with rfl | rfl | rfl | rfl | rfl
  · exact ⟨.nop, rfl, hnop.2 hc'⟩
  · exact ⟨.cfg (imm8 cmd), rfl, hcfg.2 ⟨hc', rfl⟩⟩
  · exact ⟨.init, rfl, hinit.2 hc'⟩
  · exact ⟨.abs (imm8 cmd), rfl, habs.2 ⟨hc', rfl⟩⟩
  · exact ⟨.fin, rfl, hfin.2 hc'⟩

/-- Settles O2: two rows that cover one word are the rows of the one command it decodes to. -/
theorem opcodeMapDecidesEveryWord : Obligations.OpcodeMapDecidesEveryWord := by
  refine ⟨rfl, maskedWord_iff_decode, fun cmd r q hr hq hrc hqc => ?oneRow, fun cmd => illegal_of_reserved⟩
  obtain ⟨i, rfl, hi⟩ := decode_of_covers hr hrc
  obtain ⟨j, rfl, hj⟩ := decode_of_covers hq hqc
  rw [Except.ok.inj (hi.symm.trans hj)]

/-- Settles O3: the encoder leaves every must-be-zero field zero, so no command is decoded, and a row that covered the
word would decode one. -/
theorem mustBeZeroFieldsAreIllegal : Obligations.MustBeZeroFieldsAreIllegal := by
  intro cmd hfield
  have hne : ∀ i, decode cmd ≠ .ok i := by
    rintro i hd
    obtain rfl := encode_of_decode hd
    rcases hfield with hz | ⟨hop, himm⟩
    · exact hz (zField_encode i)
    · exact himm (imm8_encode_eq_zero hop)
  refine ⟨fun r hr => Bool.eq_false_iff.2 fun hc => ?covered, illegal_of_forall_ne hne⟩
  obtain ⟨i, -, hd⟩ := decode_of_covers hr hc
  exact hne i hd

/-! ### Counting words (R54) -/

/-- The numbers below `2 ^ n` stand one to one for the words of `n` bits. -/
theorem countP_range_eq_card {n : Nat} (p : BitVec n → Bool) :
    (List.range (2 ^ n)).countP (fun k => p (BitVec.ofNat n k)) = (Finset.univ.filter (p · = true)).card :=
  calc (List.range (2 ^ n)).countP (fun k => p (BitVec.ofNat n k))
      = Nat.count (fun k => p (BitVec.ofNat n k) = true) (2 ^ n) := by simp only [Nat.count, Bool.decide_eq_true]
    _ = ((Finset.range (2 ^ n)).filter (fun k => p (BitVec.ofNat n k) = true)).card :=
        Nat.count_eq_card_filter_range _ _
    _ = (Finset.univ.filter (p · = true)).card := by
        refine Finset.card_nbij' (BitVec.ofNat n) BitVec.toNat ?_ ?_ ?_ ?_
        · intro k hk; simpa using (Finset.mem_filter.1 hk).2
        · intro w hw; simpa [w.isLt] using hw
        · intro k hk
          exact (BitVec.toNat_ofNat k n).trans (Nat.mod_eq_of_lt (Finset.mem_range.1 (Finset.mem_filter.1 hk).1))
        · intro w _; simp

theorem countWords_eq_card (p : CmdWord → Bool) : countWords p = (Finset.univ.filter (p · = true)).card :=
  countP_range_eq_card (n := 16) p

theorem fintypeCard_bitVec (n : Nat) : Fintype.card (BitVec n) = 2 ^ n := FinEnum.card_eq_fintypeCard.symm

theorem decodesTo_iff (m : String) (cmd : CmdWord) :
    decodesTo m cmd = true ↔ ∃ i : Instr, i.row.mnemonic = m ∧ encode i = cmd := by
  constructor
  · intro h
    cases hd : decode cmd with
    | ok i => exact ⟨i, by simpa [decodesTo, hd] using h, encode_of_decode hd⟩
    | error c => simp [decodesTo, hd] at h
  · rintro ⟨i, rfl, rfl⟩
    simp [decodesTo, decode_encode]

/-- A mnemonic whose commands are listed without repetition by `mk` has as many words as `mk` has arguments. -/
theorem countWords_decodesTo {α : Type} [Fintype α] {m : String} (mk : α → Instr) (hmk : Function.Injective mk)
    (hm : ∀ i : Instr, i.row.mnemonic = m ↔ ∃ a, mk a = i) : countWords (decodesTo m) = Fintype.card α := by
  rw [countWords_eq_card, ← Finset.card_univ, ← Finset.card_image_of_injective _ (encode_injective.comp hmk)]
  congr 1
  ext cmd
  simp [decodesTo_iff, hm]

/-- Every word has exactly one of the six outcomes. -/
theorem one_outcome (cmd : CmdWord) :
    (if decodesTo "NOP" cmd = true then 1 else 0) + (if decodesTo "CFG" cmd = true then 1 else 0) +
      (if decodesTo "INIT" cmd = true then 1 else 0) + (if decodesTo "ABS" cmd = true then 1 else 0) +
      (if decodesTo "FIN" cmd = true then 1 else 0) + (if isIllegal cmd = true then 1 else 0) = 1 := by
  cases hd : decode cmd with
  | ok i => cases i <;> simp [decodesTo, isIllegal, hd, Instr.row]
  | error c => simp [decodesTo, isIllegal, hd]

/-- Any set of words splits by outcome. It is stated of a set `s` and not of all the words, or Lean
would try to compute their number when it matches the sum. -/
theorem card_outcomes (s : Finset CmdWord) :
    (s.filter (decodesTo "NOP" · = true)).card + (s.filter (decodesTo "CFG" · = true)).card +
      (s.filter (decodesTo "INIT" · = true)).card + (s.filter (decodesTo "ABS" · = true)).card +
      (s.filter (decodesTo "FIN" · = true)).card + (s.filter (isIllegal · = true)).card = s.card := by
  simp only [Finset.card_filter, ← Finset.sum_add_distrib, one_outcome]
  exact s.card_eq_sum_ones.symm

/-- The six counts of R54 add up to the number of words. -/
theorem countWords_outcomes :
    countWords (decodesTo "NOP") + countWords (decodesTo "CFG") + countWords (decodesTo "INIT") +
      countWords (decodesTo "ABS") + countWords (decodesTo "FIN") + countWords isIllegal = 65536 := by
  simp only [countWords_eq_card]
  exact (card_outcomes Finset.univ).trans (fintypeCard_bitVec 16)

/-- The 65536 words by outcome (R54): one per command without operand, one per operand byte, and the rest. -/
theorem countWords_split :
    countWords (decodesTo "NOP") = 1 ∧ countWords (decodesTo "CFG") = 256 ∧ countWords (decodesTo "INIT") = 1 ∧
    countWords (decodesTo "ABS") = 256 ∧ countWords (decodesTo "FIN") = 1 ∧ countWords isIllegal = 65021 := by
  have hnop : countWords (decodesTo "NOP") = 1 :=
    countWords_decodesTo (fun _ : Unit => .nop) (fun _ _ _ => rfl) (fun i => by cases i <;> simp [Instr.row])
  have hcfg : countWords (decodesTo "CFG") = Fintype.card Byte :=
    countWords_decodesTo .cfg (fun _ _ => Instr.cfg.inj) (fun i => by cases i <;> simp [Instr.row])
  have hinit : countWords (decodesTo "INIT") = 1 :=
    countWords_decodesTo (fun _ : Unit => .init) (fun _ _ _ => rfl) (fun i => by cases i <;> simp [Instr.row])
  have habs : countWords (decodesTo "ABS") = Fintype.card Byte :=
    countWords_decodesTo .abs (fun _ _ => Instr.abs.inj) (fun i => by cases i <;> simp [Instr.row])
  have hfin : countWords (decodesTo "FIN") = 1 :=
    countWords_decodesTo (fun _ : Unit => .fin) (fun _ _ _ => rfl) (fun i => by cases i <;> simp [Instr.row])
  rw [fintypeCard_bitVec 8] at hcfg habs
  have hall := countWords_outcomes
  exact ⟨hnop, hcfg, hinit, habs, hfin, by omega⟩

/-! ### What illegal words and illegal widths do (R54, R55) -/

/-- The word of CFG with its operand put in by OR, as R56 and R59 write it. -/
theorem cfgWord_eq_encode (w : Byte) : 0x1000#16 ||| w.setWidth 16 = encode (.cfg w) := by
  have hop : 0x1000#16 = 0x10#8 ++ 0#8 := by decide
  have himm : w.setWidth 16 = 0#8 ++ w := BitVec.setWidth_eq_append (by decide)
  rw [hop, himm, BitVec.or_append, BitVec.or_zero, BitVec.zero_or]
  rfl

theorem execWord_cfg_of_not_legal {w : Byte} (hw : legalWidth w = false) (s : State) :
    execWord (encode (.cfg w)) s = .next (raise .cfg s) := by
  rw [execWord_of_decode (decode_encode _), exec_cfg_of_not_legal hw]

/-- Settles O4: the words of each command are the encoder's, and the counts follow because the encoder is injective. -/
theorem decoderHasSixOutcomes : Obligations.DecoderHasSixOutcomes := by
  refine ⟨decode_eq_ok_cases, fun cmd c s hd => execWord_of_illegal hd s, fun w s h2 h4 h8 => ?width,
    countWords_split⟩
  have hw : legalWidth w = false := by
    rw [Bool.eq_false_iff, ne_eq, legalWidth_iff]
    simp [h2, h4, h8]
  rw [cfgWord_eq_encode]
  exact execWord_cfg_of_not_legal hw s

theorem reset_ne_raise (e : ErrKind) : State.reset ≠ raise e State.reset := by
  cases e <;> decide

/-- Right after reset the block is unconfigured with no error flag set, so every word but a NOP shows there: CFG
configures the block, and any other word raises an error. -/
theorem decode_of_execWord_reset {cmd : CmdWord} (h : execWord cmd State.reset = .next State.reset) :
    decode cmd = .ok .nop := by
  have hcfgv : State.reset.cfgv ≠ true := by decide
  rcases execWord_cases h with ⟨-, ht⟩ | ⟨hd, -⟩ | ⟨v, -, -, ht⟩ | ⟨v, -, -, ht⟩ | ⟨-, -, ht⟩ | ⟨-, hv, -⟩ |
    ⟨b, -, hv, -⟩ | ⟨-, hv, -⟩
  · exact absurd ht (reset_ne_raise .ill)
  · exact hd
  · have hv : State.reset.cfgv = (configure v State.reset).cfgv := congrArg (·.cfgv) ht
    exact absurd hv hcfgv
  · exact absurd ht (reset_ne_raise .cfg)
  · exact absurd ht (reset_ne_raise .nocfg)
  · exact absurd hv hcfgv
  · exact absurd hv hcfgv
  · exact absurd hv hcfgv

/-- `0x0000` is the only word that does nothing right after reset, and it does nothing in every state (R55, R58). -/
theorem execWord_noop_iff (cmd : CmdWord) : (∀ s : State, execWord cmd s = .next s) ↔ cmd = 0x0000#16 := by
  constructor
  · exact fun h => decode_eq_ok_iff.1 (decode_of_execWord_reset (h State.reset))
  · rintro rfl s
    exact execWord_of_decode (decode_encode .nop) s

/-- Settles O5: a reserved opcode is no command's, and the state after reset tells every other word from NOP. -/
theorem reservedOpcodesRaiseErrIll : Obligations.ReservedOpcodesRaiseErrIll := by
  refine ⟨fun cmd s hop => ?reserved, execWord_noop_iff⟩
  obtain ⟨c, hd⟩ := illegal_of_reserved hop
  exact ⟨⟨c, hd⟩, execWord_of_illegal hd s⟩

end Sys2Proof.Machine
end

section
/-! PROOFS. The session commands NOP, CFG and INIT (spec/40_session.md): O15 to O17. -/

namespace Sys2Proof.Machine

/-! ### NOP (R58) -/

theorem opField_encode_eq_zero_iff (i : Instr) : opField (encode i) = 0x0#4 ↔ i = .nop := by
  cases i <;> simp [encode]

/-- Of the words with opcode 0 only `0x0000` is a command (R52, R58). -/
theorem illegal_of_opField_zero {cmd : CmdWord} (hop : opField cmd = 0x0#4) (hne : cmd ≠ encode .nop) :
    ∃ c, decode cmd = .error c := by
  refine illegal_of_forall_ne fun i hd => ?_
  obtain rfl := encode_of_decode hd
  exact hne (congrArg encode ((opField_encode_eq_zero_iff i).1 hop))

theorem execAll_singleton (i : Instr) (s : State) : execAll [i] s = exec i s := by
  obtain ⟨t, ht⟩ := exec_total i s
  rw [execAll, ht, andThen_next, execAll]

theorem execAll_nop_cons (is : List Instr) (s : State) : execAll (.nop :: is) s = execAll is s := by
  rw [execAll, exec_nop, andThen_next]

/-- Settles O15: NOP answers the state it is given, and no other command has opcode 0. -/
theorem nopLeavesEveryState : Obligations.NopLeavesEveryState := by
  refine ⟨rfl, exec_nop, fun s i => ?before, fun cmd => illegal_of_opField_zero⟩
  case before => rw [execAll_nop_cons, execAll_singleton]

/-! ### CFG (R59) -/

theorem legalWidth_eq_false {w : Byte} (h2 : w ≠ 2#8) (h4 : w ≠ 4#8) (h8 : w ≠ 8#8) : legalWidth w = false := by
  rw [Bool.eq_false_iff, ne_eq, legalWidth_iff]
  simp [h2, h4, h8]

/-- Settles O16: a legal width configures the block and any other raises ERR_CFG; the two examples are computed from the
reset state. -/
theorem cfgConstructsEngineOrRaises : Obligations.CfgConstructsEngineOrRaises := by
  refine ⟨fun w => (cfgWord_eq_encode w).symm, fun w s hw => ?legal, fun w s h2 h4 h8 => ?illegal, ?cfg8, ?cfg3⟩
  case legal => exact exec_cfg_of_legal ((legalWidth_iff w).2 hw) s
  case illegal => exact exec_cfg_of_not_legal (legalWidth_eq_false h2 h4 h8) s
  case cfg8 =>
    exact ⟨configure 8#8 State.reset, exec_cfg_of_legal (by decide) _, rfl, rfl, rfl, rfl, rfl, by decide⟩
  case cfg3 => exact ⟨raise .cfg State.reset, exec_cfg_of_not_legal (by decide) _, by decide⟩

/-! ### INIT (R60) -/

theorem startSession_startSession (s : State) : startSession (startSession s) = startSession s := rfl

theorem startSession_configure (w : Byte) (s : State) : startSession (configure w s) = configure w s := rfl

/-- What INIT answers, INIT keeps: a started session is started again, an unconfigured block has its flag set again. -/
theorem exec_init_idempotent {s t : State} (h : exec .init s = .next t) : exec .init t = .next t := by
  rcases whenConfigured_cases h with ⟨hv, rfl⟩ | ⟨hv, rfl⟩
  · rw [exec_init_of_cfgv (by rwa [startSession_cfgv]), startSession_startSession]
  · rw [exec_of_not_cfgv (.inl rfl) (by rwa [raise_cfgv])]
    rfl

/-- A valid CFG has already started the session that INIT would start (R59, R60). -/
theorem exec_init_of_configured {w : Byte} {s t : State} (hw : legalWidth w = true)
    (h : exec (.cfg w) s = .next t) : exec .init t = .next t := by
  obtain rfl : configure w s = t := by simpa [exec_cfg_of_legal hw] using h
  rw [exec_init_of_cfgv (configure_cfgv w s), startSession_configure]

theorem noError_iff (r : Regs) : noError r ↔ r.errCfg = false ∧ r.errNocfg = false ∧ r.errIll = false := by
  simp [noError, errLine, and_assoc]

/-- The STATUS word of a started session in a configured block without errors: WIDTH and CFGV alone (R29). -/
theorem statusWord_startSession {s : State} (hv : s.cfgv = true) (he : noError s.toRegs) :
    statusWord (startSession s).toRegs = 0#4 ++ s.width ++ 0x01#8 := by
  obtain ⟨hcfg, hnocfg, hill⟩ := (noError_iff s.toRegs).1 he
  have hflags : flagBits (startSession s).toRegs = 0x01#6 := by simp [flagBits, flagBit, hv, hcfg, hnocfg, hill]
  rw [statusWord_eq_fields, hflags, startSession_width, BitVec.append_assoc]
  rfl

/-- Settles O17: INIT starts a session in a configured block and raises ERR_NOCFG in any other, and a started session is
the same when started again. -/
theorem initStartsComputationOrRaises : Obligations.InitStartsComputationOrRaises := by
  refine ⟨rfl, fun s hv => exec_init_of_cfgv hv, fun s hv => exec_of_not_cfgv (.inl rfl) hv,
    fun s t => exec_init_idempotent, fun w s t hw => exec_init_of_configured ((legalWidth_iff w).2 hw),
    fun s hv hwidth he => ⟨startSession s, exec_init_of_cfgv hv, ?status⟩⟩
  case status => rw [statusWord_startSession hv he, hwidth]; rfl

end Sys2Proof.Machine
end

section
/-! PROOFS. The functions of the hash in integer arithmetic (spec/41_absorb_finalize.md section 1): each step of MIX as
its step on natural numbers, then O10; TRUNC, then O13. -/

namespace Sys2Proof.Machine

/-! ### The steps of MIX (R63) -/

@[simp] theorem zext32_toNat (b : Byte) : (zext32 b).toNat = b.toNat :=
  BitVec.toNat_setWidth_of_le (by decide)

@[simp] theorem xor32_toNat (a b : Word) : (xor32 a b).toNat = a.toNat ^^^ b.toNat := BitVec.toNat_xor a b

@[simp] theorem mixStep1_toNat (a : Word) (b : Byte) : (mixStep1 a b).toNat = a.toNat ^^^ b.toNat := by
  rw [mixStep1, xor32_toNat, zext32_toNat]

@[simp] theorem mixStep2_toNat (a : Word) : (mixStep2 a).toNat = natMixStep2 a.toNat := by
  rw [mixStep2, xor32_toNat, rotl32_toNat a (by decide), natMixStep2]

@[simp] theorem mixStep3_toNat (a : Word) : (mixStep3 a).toNat = natMixStep3 a.toNat := mul32_toNat a mixMultiplier

@[simp] theorem mixStep4_toNat (a : Word) : (mixStep4 a).toNat = natRotl a.toNat 13 := rotl32_toNat a (by decide)

@[simp] theorem mixStep6_toNat (a : Word) : (mixStep6 a).toNat = natMixStep6 a.toNat := by
  rw [mixStep6, xor32_toNat, shl32_toNat, natMixStep6]

@[simp] theorem mixStep7_toNat (a : Word) : (mixStep7 a).toNat = natMixStep7 a.toNat := by
  rw [mixStep7, xor32_toNat, shr32_toNat, natMixStep7]

@[simp] theorem mixStep8_toNat (a : Word) : (mixStep8 a).toNat = natMixStep8 a.toNat := by
  rw [mixStep8, xor32_toNat, shl32_toNat, natMixStep8]

/-- Steps 1 to 4. -/
theorem mixHead_toNat (a : Word) (b : Byte) : (mixHead a b).toNat = natMixHead a.toNat b.toNat := by
  rw [mixHead, mixStep4_toNat, mixStep3_toNat, mixStep2_toNat, mixStep1_toNat, natMixHead]

/-- Step 5 at the selected lane. -/
theorem mixLane_toNat (l a : Word) : (mixLane l a).toNat = natRotl (l.toNat ^^^ a.toNat) 5 := by
  rw [mixLane, rotl32_toNat _ (by decide), xor32_toNat]

/-- Step 5 at the accumulator, then steps 6 to 8. -/
theorem mixTail_toNat (a l : Word) : (mixTail a l).toNat = natMixTail a.toNat l.toNat := by
  rw [mixTail, mixStep8_toNat, mixStep7_toNat, mixStep6_toNat, xor32_toNat, natMixTail]

/-! ### MIX (R63, R64) -/

theorem eq_laneIndex_iff (i : Fin 4) (b : Byte) : i = laneIndex b ↔ i.val = b.toNat % 4 := Fin.ext_iff

/-- The accumulator after MIX comes from the lane that the byte selects (R63). -/
theorem mix_acc (m : MixState) (b : Byte) :
    (mix m b).acc =
      mixTail (mixHead m.acc b) (mixLane (m.lane.get (laneIndex b)) (mixHead m.acc b)) := by
  rw [mix_eq_mixAt, mixAt]

/-- The selected lane after MIX (R63). -/
theorem mix_lane_get_selected (m : MixState) (b : Byte) :
    (mix m b).lane.get (laneIndex b) = mixLane (m.lane.get (laneIndex b)) (mixHead m.acc b) := by
  rw [mix_lane_get, if_pos rfl]

/-- MIX writes no other lane (R64). -/
theorem mix_lane_get_of_ne (m : MixState) {b : Byte} {j : Fin 4} (hj : j ≠ laneIndex b) :
    (mix m b).lane.get j = m.lane.get j := by
  rw [mix_lane_get, if_neg hj]

/-- Settles O10: each step of MIX on words is its step on natural numbers, and the lane the statement names is the one
that MIX selects. -/
theorem mixIsTheEightIntegerSteps : Obligations.MixIsTheEightIntegerSteps := by
  intro m b i hi
  obtain rfl := (eq_laneIndex_iff i b).2 hi
  refine ⟨?lane, ?acc, fun j => mix_lane_get_of_ne m⟩
  case lane => rw [mix_lane_get_selected, mixLane_toNat, mixHead_toNat]
  case acc => rw [mix_acc, mixTail_toNat, mixLane_toNat, mixHead_toNat]

/-! ### TRUNC (R66) -/

/-- Settles O13: the laws of the mask and of TRUNC hold at every WIDTH, so at the three legal ones. -/
theorem truncationKeepsLowBits : Obligations.TruncationKeepsLowBits := by
  intro v w _
  refine ⟨mask_toNat w, rfl, trunc_toNat v w, ?range⟩
  case range =>
    rw [trunc_toNat]
    exact Nat.le_sub_one_of_lt (Nat.mod_lt _ (Nat.two_pow_pos _))

end Sys2Proof.Machine
end

section
/-! PROOFS. The mixing commands ABS and FIN and the sessions made of them (spec/41_absorb_finalize.md sections 2 and 3):
O18, O19 and O49. The state after any number of ABS commands is `absorbBytes`; with `HoldsSession` it says what FIN
publishes of them. -/

namespace Sys2Proof.Machine

/-! ### Sequences of commands (R44) -/

theorem execAll_cons_of_next {i : Instr} {s t : State} (h : exec i s = .next t) (is : List Instr) :
    execAll (i :: is) s = execAll is t := by
  rw [execAll, h, andThen_next]

/-- NOPs anywhere in a sequence change nothing (R58). -/
theorem execAll_filter_nop (is : List Instr) (s : State) :
    execAll (is.filter (fun i => i != .nop)) s = execAll is s := by
  induction is generalizing s with
  | nil => rfl
  | cons i is ih =>
    by_cases hi : i = .nop
    · subst hi
      rw [List.filter_cons_of_neg (by decide), ih, execAll_nop_cons]
    · obtain ⟨t, ht⟩ := exec_total i s
      rw [List.filter_cons_of_pos (by simpa using hi), execAll_cons_of_next ht, execAll_cons_of_next ht, ih]

/-- The state of a configured block after ABS of each of the bytes (R67). -/
def absorbBytes (bs : List Byte) (s : State) : State := bs.foldl (fun t b => absorb b t) s

@[simp] theorem absorbBytes_nil (s : State) : absorbBytes [] s = s := rfl

@[simp] theorem absorbBytes_cons (b : Byte) (bs : List Byte) (s : State) :
    absorbBytes (b :: bs) s = absorbBytes bs (absorb b s) := rfl

@[simp] theorem absorbBytes_mixState (bs : List Byte) (s : State) :
    (absorbBytes bs s).toMixState = absorbAll s.toMixState bs := by
  induction bs generalizing s with
  | nil => rfl
  | cons b bs ih => rw [absorbBytes_cons, ih, absorb_mixState]; rfl

@[simp] theorem absorbBytes_width (bs : List Byte) (s : State) : (absorbBytes bs s).width = s.width := by
  induction bs generalizing s with
  | nil => rfl
  | cons b bs ih => rw [absorbBytes_cons, ih, absorb_width]

@[simp] theorem absorbBytes_cfgv (bs : List Byte) (s : State) : (absorbBytes bs s).cfgv = s.cfgv := by
  induction bs generalizing s with
  | nil => rfl
  | cons b bs ih => rw [absorbBytes_cons, ih, absorb_cfgv]

/-- ABS commands at the front of a sequence absorb their bytes in a configured block. -/
theorem execAll_abs_append (bs : List Byte) (is : List Instr) {s : State} (hv : s.cfgv = true) :
    execAll (bs.map .abs ++ is) s = execAll is (absorbBytes bs s) := by
  induction bs generalizing s with
  | nil => rfl
  | cons b bs ih =>
    calc execAll ((b :: bs).map .abs ++ is) s
        = execAll (bs.map .abs ++ is) (absorb b s) := execAll_cons_of_next (exec_abs_of_cfgv hv b) _
      _ = execAll is (absorbBytes bs (absorb b s)) := ih (s := absorb b s) hv

/-- The bytes join the session in their order (R38, R67). -/
theorem HoldsSession.absorbBytes {s : State} {d : List Byte} (h : HoldsSession s.toRegs d) (bs : List Byte) :
    HoldsSession (absorbBytes bs s).toRegs (d ++ bs) := by
  induction bs generalizing s d with
  | nil => rwa [List.append_nil]
  | cons b bs ih => rw [absorbBytes_cons, List.append_cons]; exact ih (h.absorb b)

/-- ABS of each byte and FIN leave the hash of the session's bytes followed by the new ones (R67, R68, R88). -/
theorem execAll_abs_fin {s : State} {d : List Byte} (hv : s.cfgv = true) (h : HoldsSession s.toRegs d)
    (bs : List Byte) :
    ∃ t, execAll (bs.map .abs ++ [.fin]) s = .next t ∧ t.result = hashOf .ascending s.width (d ++ bs) ∧
      t.done = true ∧ t.width = s.width := by
  have hfin : execAll (bs.map .abs ++ [.fin]) s = .next (publish (Machine.absorbBytes bs s)) := by
    rw [execAll_abs_append bs _ hv, execAll_singleton, exec_fin_of_cfgv (by rwa [absorbBytes_cfgv])]
  refine ⟨_, hfin, ?result, publish_done _, absorbBytes_width bs s⟩
  rw [publish_result, (h.absorbBytes bs).finResult, absorbBytes_width, Config.foldOrder]

/-! ### ABS (R67) -/

/-- The word of a command with its operand put in by OR, as R56 and R67 write it. -/
theorem assembleFields_or_operand (op : BitVec 4) (b : Byte) :
    assembleFields op 0x0#4 0x00#8 ||| b.setWidth 16 = assembleFields op 0x0#4 b := by
  have hb : b.setWidth 16 = 0#8 ++ b := BitVec.setWidth_eq_append (by decide)
  simp only [assembleFields]
  rw [hb, BitVec.or_append, BitVec.or_zero, BitVec.zero_or]

/-- Any number of ABS completes in a configured block. -/
theorem execAll_abs (bs : List Byte) {s : State} (hv : s.cfgv = true) :
    execAll (bs.map .abs) s = .next (absorbBytes bs s) := by
  simpa [execAll] using execAll_abs_append bs [] hv

/-- Settles O18: ABS after FIN continues the session because FIN keeps it; the two values of MIX are computed. -/
theorem absMixesOneByteOrRaises : Obligations.AbsMixesOneByteOrRaises := by
  refine ⟨fun b => (assembleFields_or_operand 0x3#4 b).symm, fun b s hv => exec_abs_of_cfgv hv b,
    fun b s hv => exec_of_not_cfgv (.inr (.inl ⟨b, rfl⟩)) hv, ?zeroByte,
    fun bs s hv => ⟨absorbBytes bs s, execAll_abs bs hv, absorbBytes_mixState bs s⟩,
    fun b d s hv h => ?continued, ?mixOf41⟩
  case zeroByte => decide
  case mixOf41 => decide
  case continued =>
    obtain ⟨t, ht, hresult, -, -⟩ := execAll_abs_fin (s := publish s) hv h.publish [b]
    exact ⟨t, (execAll_cons_of_next (exec_fin_of_cfgv hv) _).trans ht, hresult⟩

/-! ### FIN (R68) -/

/-- A second FIN publishes what the first did: FIN writes nothing that it reads. -/
theorem exec_fin_result_again {s t u : State} (ht : exec .fin s = .next t) (hu : exec .fin t = .next u) :
    u.result = t.result := by
  rcases whenConfigured_cases ht with ⟨hv, rfl⟩ | ⟨hv, rfl⟩
  · rw [exec_fin_of_cfgv (by rwa [publish_cfgv])] at hu
    cases hu
    rfl
  · rw [exec_of_not_cfgv (.inr (.inr rfl)) (by rwa [raise_cfgv])] at hu
    cases hu
    rfl

/-- The RESULT of FIN in a configured block fits the width (R26, R68). -/
theorem exec_fin_result_lt {s t : State} (hv : s.cfgv = true) (h : exec .fin s = .next t) :
    t.result.toNat < 2 ^ s.width.toNat := by
  rw [exec_fin_of_cfgv hv] at h
  cases h
  exact finResult_lt s.toRegs

/-- Settles O19: FIN publishes `finResult` in a configured block and raises ERR_NOCFG in any other; the corner cases are
computed. -/
theorem finPublishesHashOrRaises : Obligations.FinPublishesHashOrRaises := by
  refine ⟨rfl, fun s hv => exec_fin_of_cfgv hv, fun s hv => exec_of_not_cfgv (.inr (.inr rfl)) hv,
    fun s t u => exec_fin_result_again, fun s t hv _ => exec_fin_result_lt hv, ?foldOfStart,
    fun w hw => ?hashOfAB, ?hashOfAAAA⟩
  case foldOfStart => decide
  case hashOfAAAA => decide
  case hashOfAB => rcases hw with rfl | rfl | rfl <;> decide

/-! ### The hash of a byte sequence (R69) -/

theorem holdsSession_startSession (s : State) : HoldsSession (startSession s).toRegs [] :=
  holdsSession_nil (startSession_mixState s) (startSession_ne s) (startSession_done s)

theorem holdsSession_configure (w : Byte) (s : State) : HoldsSession (configure w s).toRegs [] :=
  holdsSession_nil (configure_mixState w s) (configure_ne w s) (configure_done w s)

/-- A command that starts a session in a configured block, then ABS of each byte and FIN, with NOPs anywhere, leave the
hash of exactly those bytes. -/
theorem execAll_session {i : Instr} {is : List Instr} {s t : State} {w : BitVec 4} {d : List Byte}
    (hi : exec i s = .next t) (hv : t.cfgv = true) (hw : t.width = w) (h : HoldsSession t.toRegs [])
    (his : is.filter (fun i => i != .nop) = i :: (d.map .abs ++ [.fin])) :
    ∃ u, execAll is s = .next u ∧ u.result = hashOf .ascending w d ∧ u.done = true ∧ u.width = w := by
  rw [← execAll_filter_nop, his, execAll_cons_of_next hi, ← hw]
  exact execAll_abs_fin hv h d

/-- Settles O49: INIT in a configured block, and CFG with a legal width in any, start an empty session. -/
theorem sessionsComputeTheHash : Obligations.SessionsComputeTheHash := by
  refine ⟨fun d s is hv his => ?init, fun w d s is hw his => ?cfg⟩
  case init =>
    exact execAll_session (t := startSession s) (exec_init_of_cfgv hv) hv rfl (holdsSession_startSession s) his
  case cfg =>
    have hcfg := exec_cfg_of_legal ((legalWidth_iff w).2 hw) s
    exact execAll_session hcfg rfl rfl (holdsSession_configure w s) his

end Sys2Proof.Machine
end

section
/-! PROOFS. The errors (spec/60_exceptions.md): O29 to O32. `raisedBy` says which error a word raises; its cause is
read from it flag by flag, and a flag after a word is the flag before it or the error raised. -/

namespace Sys2Proof.Machine

/-! ### The cause of each error (R73 to R77) -/

/-- ERR_ILL is raised by the ILLEGAL words alone, in every state (R74). -/
theorem raisedBy_eq_ill_iff (w : CmdWord) (r : Regs) :
    raisedBy w r = some .ill ↔ ∃ c, decode w = .error c := by
  cases hd : decode w with
  | error c => simp [raisedBy, hd]
  | ok i => cases i <;> simp [raisedBy, hd]

/-- ERR_CFG is raised by CFG with an illegal width alone, whatever CFGV (R73). -/
theorem raisedBy_eq_cfg_iff (w : CmdWord) (r : Regs) :
    raisedBy w r = some .cfg ↔ ∃ v, decode w = .ok (.cfg v) ∧ legalWidth v = false := by
  cases hd : decode w with
  | error c => simp [raisedBy, hd]
  | ok i => cases i <;> simp [raisedBy, hd]

/-- ERR_NOCFG is raised by INIT, ABS and FIN alone, in an unconfigured block (R75). -/
theorem raisedBy_eq_nocfg_iff (w : CmdWord) (r : Regs) :
    raisedBy w r = some .nocfg ↔
      (decode w = .ok .init ∨ (∃ b, decode w = .ok (.abs b)) ∨ decode w = .ok .fin) ∧ r.cfgv = false := by
  cases hd : decode w with
  | error c => simp [raisedBy, hd]
  | ok i => cases i <;> simp [raisedBy, hd]

theorem legalWidth_eq_false_iff (w : Byte) : legalWidth w = false ↔ w ≠ 2#8 ∧ w ≠ 4#8 ∧ w ≠ 8#8 := by
  rw [← Bool.not_eq_true, legalWidth_iff, not_or, not_or]

/-! ### The flags after a word and after an edge (R79, R80) -/

/-- A word that raises no error leaves the three flags as they are. -/
theorem flagOf_of_not_raised {w : CmdWord} {s t : State} (hn : raisedBy w s.toRegs = none)
    (h : execWord w s = .next t) (e : ErrKind) : flagOf e t.toRegs = flagOf e s.toRegs := by
  rcases execWord_cases h with ⟨hd, -⟩ | ⟨-, rfl⟩ | ⟨v, -, -, rfl⟩ | ⟨v, hd, hv, -⟩ | ⟨hd, hv, -⟩ | ⟨-, -, rfl⟩ |
    ⟨b, -, -, rfl⟩ | ⟨-, -, rfl⟩
  · simp [(raisedBy_eq_ill_iff w s.toRegs).2 hd] at hn
  · rfl
  · cases e <;> rfl
  · simp [(raisedBy_eq_cfg_iff w s.toRegs).2 ⟨v, hd, hv⟩] at hn
  · simp [(raisedBy_eq_nocfg_iff w s.toRegs).2 ⟨hd, hv⟩] at hn
  all_goals cases e <;> rfl

/-- After a word a flag is 1 exactly when it was 1 before or the word raises its error. -/
theorem flagOf_execWord {w : CmdWord} {s t : State} (h : execWord w s = .next t) (e : ErrKind) :
    flagOf e t.toRegs = (flagOf e s.toRegs || raisedBy w s.toRegs == some e) := by
  cases hr : raisedBy w s.toRegs with
  | none => rw [flagOf_of_not_raised hr h]; simp
  | some k =>
    obtain rfl : raise k s = t := by simpa [execWord_of_raisedBy hr] using h
    rw [flagOf_raise]
    simp

/-- A flag that a word changes had its own error raised. -/
theorem raisedBy_of_flagOf_ne {w : CmdWord} {s t : State} {e : ErrKind} (h : execWord w s = .next t)
    (hne : flagOf e t.toRegs ≠ flagOf e s.toRegs) : raisedBy w s.toRegs = some e := by
  by_contra hr
  exact hne (by simp [flagOf_execWord h, hr])

theorem flagOf_execWord_of_set {w : CmdWord} {s t : State} {e : ErrKind} (h : execWord w s = .next t)
    (he : flagOf e s.toRegs = true) : flagOf e t.toRegs = true := by
  rw [flagOf_execWord h, he, Bool.true_or]

/-- A flag that is 1 stays 1 over every edge without reset. -/
theorem flagOf_step_of_set {s t : State} {e : ErrKind} (h : step s = .next t) (hr : (pins s).rst = false)
    (he : flagOf e s.toRegs = true) : flagOf e t.toRegs = true := by
  rcases step_cases h with ⟨hr', -⟩ | ⟨-, -, u, hu, rfl⟩ | ⟨-, -, rfl⟩
  · simp [hr] at hr'
  · rw [acceptEdge_toRegs]; exact flagOf_execWord_of_set hu he
  · exact he

theorem raise_eq_self_with_flags (e : ErrKind) (s : State) :
    raise e s = { s with errCfg := (raise e s).errCfg, errNocfg := (raise e s).errNocfg,
                         errIll := (raise e s).errIll } := by
  cases e <;> rfl

/-! ### The statements -/

/-- Settles O29: such a word does nothing but raise its error, and every word answers a next state in every state. -/
theorem errorSetsOneFlagOnly : Obligations.ErrorSetsOneFlagOnly := by
  intro w s e hr
  refine ⟨raise e s, execWord_of_raisedBy hr, ?own, fun k hk => ?others, raise_eq_self_with_flags e s,
    fun v => execWord_total v _⟩
  case own => simp [flagOf_raise]
  case others => simp [flagOf_raise, hk.symm]

/-- Settles O30: each check is the cause of one error, which is all its word raises; a flag that changes has had its own
error raised, so its own cause; the two examples are illegal words. -/
theorem errorCausesInPriorityOrder : Obligations.ErrorCausesInPriorityOrder := by
  refine ⟨fun w s => ⟨fun hd => ?ill, fun v hd h2 h4 h8 => ?cfg, fun hd hv => ?nocfg, fun t ht =>
    ⟨fun hne => ?illChanged, fun hne => ?cfgChanged, fun hne => ?nocfgChanged⟩⟩, ?reserved, ?nonzeroImm⟩
  case ill => exact execWord_of_raisedBy ((raisedBy_eq_ill_iff w s.toRegs).2 hd)
  case cfg => exact execWord_of_raisedBy ((raisedBy_eq_cfg_iff w s.toRegs).2 ⟨v, hd, legalWidth_eq_false h2 h4 h8⟩)
  case nocfg => exact execWord_of_raisedBy ((raisedBy_eq_nocfg_iff w s.toRegs).2 ⟨hd, hv⟩)
  case illChanged => exact (raisedBy_eq_ill_iff w s.toRegs).1 (raisedBy_of_flagOf_ne ht hne)
  case cfgChanged =>
    obtain ⟨v, hd, hv⟩ := (raisedBy_eq_cfg_iff w s.toRegs).1 (raisedBy_of_flagOf_ne ht hne)
    exact ⟨v, hd, (legalWidth_eq_false_iff v).1 hv⟩
  case nocfgChanged => exact (raisedBy_eq_nocfg_iff w s.toRegs).1 (raisedBy_of_flagOf_ne ht hne)
  case reserved => exact ⟨raise .ill State.reset, execWord_of_illegal (c := .reservedOpcode) (by decide) _, rfl, rfl⟩
  case nonzeroImm => exact ⟨raise .ill State.reset, execWord_of_illegal (c := .nonzeroImm) (by decide) _, rfl, rfl⟩

/-- Settles O31: `err` is 1 by some flag, and without reset that flag stays 1. -/
theorem errLineIsOrOfFlags : Obligations.ErrLineIsOrOfFlags := by
  refine ⟨fun s hw hready => errPort_of_valid (Bool.and_eq_true_iff.2 ⟨hw, hready⟩), fun s t h hs ht => ?falls⟩
  by_contra hr
  obtain ⟨e, he⟩ := (errLine_iff s.toRegs).1 hs
  have hset : flagOf e t.toRegs = true := flagOf_step_of_set h (Bool.eq_false_iff.2 hr) he
  exact Bool.eq_false_iff.1 ht ((errLine_iff t.toRegs).2 ⟨e, hset⟩)

/-- Settles O32: a reset edge leaves the reset values, any other edge keeps a set flag, and so does a command, as its
word does. -/
theorem onlyResetClearsErrors : Obligations.OnlyResetClearsErrors := by
  refine ⟨fun s t e h => ⟨fun hr => ?reset, flagOf_step_of_set h⟩, fun i s t e h => ?command⟩
  case reset => rw [regs_of_rst h hr]; cases e <;> rfl
  case command => exact flagOf_execWord_of_set ((execWord_of_decode (decode_encode i) s).trans h)

end Sys2Proof.Machine
end

section
/-! PROOFS. Reset and hazards (spec/70_reset_and_hazards.md): O33, O35 and O51. `err` is 0 at the end of a sequence of
words exactly when it was 0 before and no word of the sequence raised an error. -/

namespace Sys2Proof.Machine

/-! ### The error flags over a sequence of words (R90) -/

theorem noError_iff_flagOf (r : Regs) : noError r ↔ ∀ e, flagOf e r = false := by
  simp only [noError, ← Bool.not_eq_true, errLine_iff, not_exists]

/-- After one word no flag is set exactly when none was set and the word raised none. -/
theorem noError_execWord_iff {w : CmdWord} {s t : State} (h : execWord w s = .next t) :
    noError t.toRegs ↔ noError s.toRegs ∧ raisedBy w s.toRegs = none := by
  simp only [noError_iff_flagOf, flagOf_execWord h, Bool.or_eq_false_iff, beq_eq_false_iff_ne, forall_and,
    Option.eq_none_iff_forall_ne_some]

/-- No word of the sequence raises an error in the state the words before it lead to. -/
def NoneRaises (ws : List CmdWord) (s : State) : Prop :=
  ∀ us w vs, ws = us ++ w :: vs → ∃ u, execWords us s = .next u ∧ raisedBy w u.toRegs = none

theorem noneRaises_nil (s : State) : NoneRaises [] s := fun us w vs h => by simp at h

theorem execWords_cons_of_next {w : CmdWord} {s t : State} (h : execWord w s = .next t) (ws : List CmdWord) :
    execWords (w :: ws) s = execWords ws t := by
  rw [execWords, h, andThen_next]

theorem noneRaises_cons_iff {w : CmdWord} {s t : State} (h : execWord w s = .next t) (ws : List CmdWord) :
    NoneRaises (w :: ws) s ↔ raisedBy w s.toRegs = none ∧ NoneRaises ws t := by
  constructor
  · intro hn
    obtain ⟨u, hu, hr⟩ := hn [] w ws rfl
    obtain rfl : s = u := by simpa [execWords] using hu
    refine ⟨hr, fun us v vs hws => ?_⟩
    rw [← execWords_cons_of_next h us]
    exact hn (w :: us) v vs (congrArg (w :: ·) hws)
  · rintro ⟨hr, hn⟩ us v vs hws
    cases us with
    | nil => cases hws; exact ⟨s, rfl, hr⟩
    | cons x us =>
      obtain ⟨rfl, htail⟩ := List.cons.inj hws
      rw [execWords_cons_of_next h us]
      exact hn us v vs htail

/-- Every sequence of words completes (R72). -/
theorem execWords_total (ws : List CmdWord) (s : State) : ∃ t, execWords ws s = .next t := by
  induction ws generalizing s with
  | nil => exact ⟨s, rfl⟩
  | cons w ws ih =>
    obtain ⟨t, ht⟩ := execWord_total w s
    rw [execWords_cons_of_next ht]
    exact ih t

/-- At the end of a sequence no flag is set exactly when none was set before and no word raised one (R90). -/
theorem noError_execWords_iff {ws : List CmdWord} {s t : State} (h : execWords ws s = .next t) :
    noError t.toRegs ↔ noError s.toRegs ∧ NoneRaises ws s := by
  induction ws generalizing s with
  | nil =>
    cases h
    exact (and_iff_left (noneRaises_nil _)).symm
  | cons w ws ih =>
    obtain ⟨u, hu⟩ := execWord_total w s
    rw [execWords_cons_of_next hu] at h
    rw [ih h, noError_execWord_iff hu, noneRaises_cons_iff hu, and_assoc]

/-- Every prefix completes (R72), so where `NoneRaises` fails it is because some word raises an error. -/
theorem exists_raised_of_not_noneRaises {ws : List CmdWord} {s : State} (h : ¬ NoneRaises ws s) :
    ∃ us w vs u, ws = us ++ w :: vs ∧ execWords us s = .next u ∧ raisedBy w u.toRegs ≠ none := by
  simp only [NoneRaises, not_forall] at h
  obtain ⟨us, w, vs, hws, hr⟩ := h
  obtain ⟨u, hu⟩ := execWords_total us s
  exact ⟨us, w, vs, u, hws, hu, fun hn => hr ⟨u, hu, hn⟩⟩

/-- Settles O33: the flags at the end are clear exactly when they were clear before and no word raised an error, by
induction over the sequence. -/
theorem errAtTheEndCoversTheSequence : Obligations.ErrAtTheEndCoversTheSequence := by
  intro ws s
  obtain ⟨t, ht⟩ := execWords_total ws s
  have hend : noError t.toRegs ↔ noError s.toRegs ∧ NoneRaises ws s := noError_execWords_iff ht
  refine ⟨t, ht, fun hn => (hend.1 hn).2, fun herr => ?_⟩
  rw [hend, not_and_or] at herr
  exact herr.imp_right exists_raised_of_not_noneRaises

/-! ### One edge with `rst = 1` (R83) -/

/-- While `rst` is 1 the block is not ready. -/
theorem cmdReady_of_rst {s : State} (hr : (pins s).rst = true) : cmdReady s = false := if_pos hr

/-- No word is accepted while `rst` is 1. -/
theorem accepts_of_rst {s : State} (hr : (pins s).rst = true) : accepts s = false := by
  simp [accepts, offered, hr]

/-- Settles O35: the edge is `resetEdge`, which leaves a block that has been reset and is not busy. -/
theorem resetEdgeResetsEverything : Obligations.ResetEdgeResetsEverything := by
  intro s hr
  refine ⟨cmdReady_of_rst hr, accepts_of_rst hr, resetEdge s, step_of_rst hr, resetEdge_toRegs s, resetEdge_busy s,
    resetEdge_wasReset s, resetEdge_inputs s, fun hrst hvalid => ?accepted⟩
  exact (accepts_iff _).2 ⟨resetEdge_wasReset s, hrst, hvalid, resetEdge_busy s⟩

/-! ### A session continued without INIT (R88) -/

/-- The state after ABS of each byte and FIN in a configured block (R67, R68). -/
theorem execAll_abs_fin_eq_publish (bs : List Byte) {s : State} (hv : s.cfgv = true) :
    execAll (bs.map .abs ++ [.fin]) s = .next (publish (absorbBytes bs s)) := by
  rw [execAll_abs_append bs _ hv, execAll_singleton, exec_fin_of_cfgv (by rwa [absorbBytes_cfgv])]

/-- Settles O51: the new bytes join the session `d`, FIN keeps it, and with DONE = 1 RESULT is its hash. -/
theorem omittingInitContinuesTheSession : Obligations.OmittingInitContinuesTheSession := by
  intro s d e hv h
  have hold : HoldsSession (publish (absorbBytes e s)).toRegs (d ++ e) := (h.absorbBytes e).publish
  refine ⟨_, execAll_abs_fin_eq_publish e hv, ?result, hold⟩
  calc (publish (absorbBytes e s)).result
      = hashOf Config.foldOrder (publish (absorbBytes e s)).width (d ++ e) := hold.current (publish_done _)
    _ = hashOf .ascending s.width (d ++ e) := by rw [publish_width, absorbBytes_width, Config.foldOrder]

end Sys2Proof.Machine
end

section
/-! PROOFS. The round trip of the encoding (O1, O6) and what every edge does: the invariant (O43 to O46), the session
(O47, O48), the MixState (O20), and the outputs before and after the first reset (O36, O39, O42). -/

namespace Sys2Proof.Machine

/-! ### The encoding -/

/-- Every operand fits its field (R51, R54). -/
theorem instr_wf (i : Instr) : i.wf = true := by cases i <;> rfl

/-- Settles O1: the decoder inverts the encoder on every command, and a decoded word is its command's encoding. -/
theorem decodeAndEncodeAgree : Obligations.DecodeAndEncodeAgree :=
  ⟨fun i _ => decode_encode i, fun _ i hd => ⟨encode_of_decode hd, instr_wf i⟩⟩

/-- Settles O6: seventeen words, each decoded by computation. -/
theorem sampleWordsDecode : Obligations.SampleWordsDecode := by
  unfold Obligations.SampleWordsDecode
  decide

/-! ### The invariant over an edge -/

/-- No edge makes the block a power-on one again (R84). -/
theorem wasReset_of_step {s t : State} (hw : s.wasReset = true) (h : step s = .next t) : t.wasReset = true := by
  rcases step_cases h with ⟨-, rfl⟩ | ⟨-, -, u, hu, rfl⟩ | ⟨-, -, rfl⟩
  · rfl
  · obtain ⟨-, hwu, -, -, -⟩ := execWord_env hu
    rw [acceptEdge_wasReset, hwu, hw]
  · exact hw

theorem stallOf_lt_cmdLatency (l : List Nat) : stallOf l < Config.cmdLatency := Nat.lt_succ_of_le (stallOf_le l)

/-- An edge leaves the block busy for less than CMD_LATENCY: a reset ends what was in flight, an accepted word draws a
bounded number, and a quiet edge counts down (R83, R86, R92). -/
theorem busy_lt_of_step {s t : State} (hb : s.busy < Config.cmdLatency) (h : step s = .next t) :
    t.busy < Config.cmdLatency := by
  rcases step_cases h with ⟨-, rfl⟩ | ⟨-, -, u, -, rfl⟩ | ⟨-, -, rfl⟩
  · exact Nat.succ_pos _
  · exact stallOf_lt_cmdLatency u.stalls
  · exact (Nat.sub_le _ _).trans_lt hb

/-- Settles O46: the reset history, the relations among the registers and the bound on busy, each kept by every edge. -/
theorem everyEdgeKeepsInvariant : Obligations.EveryEdgeKeepsInvariant := fun _ _ hs h =>
  ⟨wasReset_of_step hs.was_reset h, hs.regs.step h, busy_lt_of_step hs.busy_bound h⟩

/-- Settles O47: the six things an edge can do to the registers each move the session as its command says. -/
theorem everyEdgeTracksTheSession : Obligations.EveryEdgeTracksTheSession := fun _ _ _ hs h => hs.step h

theorem inv_resetEdge (s : State) : Inv (resetEdge s) := ⟨rfl, regsInv_reset, Nat.succ_pos _⟩

/-- Settles O45: the edge is `resetEdge`, whatever the state. -/
theorem resetEdgeEstablishesInvariant : Obligations.ResetEdgeEstablishesInvariant := fun s hr =>
  ⟨resetEdge s, step_of_rst hr, inv_resetEdge s⟩

/-- Settles O44: the registers of the reset state are those a reset edge leaves. -/
theorem resetMeetsInvariant : Obligations.ResetMeetsInvariant := ⟨rfl, regsInv_reset, Nat.succ_pos _⟩

/-! ### Which edges answer a next state -/

/-- The edge that accepts a word is the word's effect, then `acceptEdge` (R45). -/
theorem step_of_accepted_word {s u : State} (ha : accepts s = true) (hu : execWord (pins s).cmd s = .next u) :
    step s = .next (acceptEdge u) := by
  rw [step_of_accepts ha, acceptWord, hu, andThen_next]

/-- After the first reset every edge answers a next state (R72). -/
theorem step_total_of_wasReset {s : State} (hw : s.wasReset = true) : ∃ t, step s = .next t := by
  cases hr : (pins s).rst with
  | true => exact ⟨_, step_of_rst hr⟩
  | false =>
    cases ha : accepts s with
    | true =>
      obtain ⟨t, ht⟩ := execWord_total (pins s).cmd s
      exact ⟨acceptEdge t, step_of_accepted_word ha ht⟩
    | false => exact ⟨_, step_of_not_accepts hw hr ha⟩

section
variable {s : State} (hw : s.wasReset = false) (hr : (pins s).rst = false)
include hw hr

/-- A word offered before the first reset is refused (R84, notes/assumptions/3.md). -/
theorem step_of_offer_before_reset (hv : (pins s).cmdValid = true) : step s = .refused .commandBeforeReset := by
  simp [step, offered, hw, hr, hv]

/-- Before the first reset an edge that offers nothing is quiet (notes/assumptions/3.md). -/
theorem step_of_idle_before_reset (hv : (pins s).cmdValid = false) : step s = .next (quietEdge s) := by
  simp [step, offered, accepts, hw, hr, hv]

end

/-- Settles O43: exec is total, and step is but for a word before the first reset. -/
theorem onlyUnresetBlocksStop : Obligations.OnlyUnresetBlocksStop := by
  refine ⟨exec_total, fun s => ?edge⟩
  cases hw : s.wasReset with
  | true => exact .inl (step_total_of_wasReset hw)
  | false =>
    cases hr : (pins s).rst with
    | true => exact .inl ⟨_, step_of_rst hr⟩
    | false =>
      cases hv : (pins s).cmdValid with
      | true => exact .inr ⟨step_of_offer_before_reset hw hr hv, rfl, rfl, rfl⟩
      | false => exact .inl ⟨_, step_of_idle_before_reset hw hr hv⟩

/-- Settles O42: an accepting edge is the word's effect and then `acceptEdge`. -/
theorem stepRunsTheDecodedCommand : Obligations.StepRunsTheDecodedCommand := by
  intro s ha
  rw [step_of_accepts ha, acceptWord]
  refine ⟨fun i hd => ?command, fun c hd => ?illegal⟩
  case command => rw [execWord_of_decode hd]; rfl
  case illegal => rw [execWord_of_illegal hd]; rfl

/-! ### The outputs while they are free -/

section
variable {s : State} (hv : outputsValid s = false)
include hv

theorem statusPort_of_not_valid : statusPort s = Config.unspecifiedStatus s s.draws := by simp [statusPort, hv]
theorem resultPort_of_not_valid : resultPort s = Config.unspecifiedResult s s.draws := by simp [resultPort, hv]
theorem errPort_of_not_valid : errPort s = Config.unspecifiedErr s s.draws := by simp [errPort, hv]

end

/-- Settles O36: a word is refused, an idle edge is quiet, and the outputs are not valid. -/
theorem nothingRunsBeforeTheFirstReset : Obligations.NothingRunsBeforeTheFirstReset := by
  intro s hw
  have hv : outputsValid s = false := by rw [outputsValid, hw, Bool.false_and]
  refine ⟨step_of_offer_before_reset hw, fun hr hi => ?idle, statusPort_of_not_valid hv, resultPort_of_not_valid hv,
    errPort_of_not_valid hv⟩
  exact ⟨quietEdge s, step_of_idle_before_reset hw hr hi, hw, quietEdge_toRegs s⟩

/-- Settles O39: after a reset the outputs are valid exactly while `cmd_ready` is 1. -/
theorem outputsValidOnlyWhenReady : Obligations.OutputsValidOnlyWhenReady := by
  intro s hw
  have valid : outputsValid s = cmdReady s := by rw [outputsValid, hw, Bool.true_and]
  rw [← valid]
  exact ⟨fun hv _ => ⟨statusPort_of_valid hv, resultPort_of_valid hv, errPort_of_valid hv⟩,
    fun hv => ⟨statusPort_of_not_valid hv, resultPort_of_not_valid hv, errPort_of_not_valid hv⟩⟩

/-- Settles O48: what the ports show are the registers, and a published RESULT is the hash of the session's bytes. -/
theorem doneResultIsTheSessionHash : Obligations.DoneResultIsTheSessionHash := by
  intro s d hs hv
  obtain ⟨-, ne, done, -⟩ := statusWord_flags s.toRegs
  rw [statusPort_of_valid hv, resultPort_of_valid hv, statusWord_width, ne, done]
  exact fun hd => ⟨hs.current hd, hs.nonempty⟩

/-! ### Who writes the MixState -/

/-- Only reset, INIT, a valid CFG and ABS write ACC or a lane (R20, R21). -/
theorem mixState_change {s t : State} (h : step s = .next t) (hne : t.toMixState ≠ s.toMixState) :
    (pins s).rst = true ∨ (acceptedCommand s = some .init ∧ s.cfgv = true) ∨
    (∃ w, acceptedCommand s = some (.cfg w) ∧ (w = 2#8 ∨ w = 4#8 ∨ w = 8#8)) ∨
    (∃ b, acceptedCommand s = some (.abs b) ∧ s.cfgv = true) := by
  cases edgeWrite_of_step h with
  | reset rst regs => exact .inl rst
  | started cmd cfgv regs => exact .inr (.inl ⟨cmd, cfgv⟩)
  | configured w cmd legal regs => exact .inr (.inr (.inl ⟨w, cmd, legal⟩))
  | absorbed b cmd cfgv regs => exact .inr (.inr (.inr ⟨b, cmd, cfgv⟩))
  | published cmd cfgv regs => exact absurd (by rw [regs, publish_mixState]) hne
  | kept same session => exact absurd same.toMixState hne

/-- Settles O20: the writers from the registers each edge leaves, the lanes an ABS keeps from those MIX keeps. -/
theorem mixStateWriters : Obligations.MixStateWriters := by
  intro s t h
  refine ⟨fun hr => ?reset, fun hc hv => ?init, fun w hc hw => ?cfg, fun b hc hv => ?abs, mixState_change h⟩
  case reset => rw [regs_of_rst h hr]; rfl
  case init => rw [regs_of_init h hc hv, startSession_mixState]
  case cfg => rw [regs_of_cfg h hc hw, configure_mixState]
  case abs =>
    rw [regs_of_abs h hc hv, absorb_mixState]
    exact ⟨rfl, fun j => mix_lane_get_of_ne s.toMixState⟩

end Sys2Proof.Machine
end

section
/-! PROOFS. Laws of the hash functions (spec/41_absorb_finalize.md): which lanes bytes select (O11), the fold (O12),
which steps of MIX are bijective (O14), the range of the hash (O50) and five hashes (O53). -/

namespace Sys2Proof.Machine

/-! ### Lanes (R64) -/

/-- `b mod 4` is the value of bits 1:0. -/
theorem laneIndex_val_eq_lowBits (b : Byte) : (laneIndex b).val = (b.extractLsb' 0 2).toNat := by
  simp [laneIndex]

/-- A lane that no byte selects keeps its value, from any MixState. -/
theorem absorbAll_lane_get_of_unselected (m : MixState) (d : List Byte) (j : Fin 4)
    (hd : ∀ b ∈ d, laneIndex b ≠ j) : (absorbAll m d).lane.get j = m.lane.get j := by
  induction d generalizing m with
  | nil => rfl
  | cons b d ih =>
    obtain ⟨hb, hd⟩ := List.forall_mem_cons.1 hd
    calc (absorbAll m (b :: d)).lane.get j
        = (mix m b).lane.get j := ih (mix m b) hd
      _ = m.lane.get j := mix_lane_get_of_ne m hb.symm

/-- Settles O11: MIX writes the selected lane alone, and so does a sequence of bytes by induction. -/
theorem bytesSelectLanes : Obligations.BytesSelectLanes :=
  ⟨fun b => ⟨rfl, laneIndex_val_eq_lowBits b⟩, fun m _ _ => mix_lane_get_of_ne m,
    absorbAll_lane_get_of_unselected mixStart⟩

/-! ### The fold (R65) -/

/-- Settles O12: each order's list of lanes, folded turn by turn. -/
theorem foldVisitsLanesInOrder : Obligations.FoldVisitsLanesInOrder :=
  ⟨rfl, fun _ _ _ _ _ => ⟨rfl, rfl⟩⟩

/-! ### Bijective steps of MIX (R70) -/

/-- The inverse of the multiplier of step 3 modulo `2^32`; it exists because the multiplier is odd. -/
def mixMultiplierInv : Word := 0x144CBC89#32

theorem mixMultiplier_mul_inv : mixMultiplier * mixMultiplierInv = 1#32 := by decide

theorem mixStep3_bijective : Function.Bijective mixStep3 := by
  refine Function.bijective_iff_has_inverse.2 ⟨fun a => mul32 a mixMultiplierInv, fun a => ?_, fun a => ?_⟩
  · calc a * mixMultiplier * mixMultiplierInv
        = a * (mixMultiplier * mixMultiplierInv) := BitVec.mul_assoc ..
      _ = a := by rw [mixMultiplier_mul_inv, BitVec.mul_one]
  · calc a * mixMultiplierInv * mixMultiplier
        = a * (mixMultiplier * mixMultiplierInv) := by rw [BitVec.mul_assoc, BitVec.mul_comm mixMultiplierInv]
      _ = a := by rw [mixMultiplier_mul_inv, BitVec.mul_one]

/-- `a ^ g(a)` is bijective when `g` respects XOR and some number of turns of `g` gives 0: if `a` and `b` have one
image, `g` fixes `a ^ b`, which is then 0. -/
theorem bijective_xor_of_nilpotent {g : Word → Word} (hxor : ∀ a b, g (a ^^^ b) = g a ^^^ g b) {n : Nat}
    (hzero : ∀ a, g^[n] a = 0#32) : Function.Bijective (fun a => xor32 a (g a)) := by
  refine Finite.injective_iff_bijective.1 fun a b hab => ?_
  have hfixed : Function.IsFixedPt g (a ^^^ b) := by
    have hab : a ^^^ g a = b ^^^ g b := hab
    rw [Function.IsFixedPt, hxor]
    calc g a ^^^ g b = a ^^^ (a ^^^ g a) ^^^ g b := by rw [← BitVec.xor_assoc, BitVec.xor_self, BitVec.zero_xor]
      _ = a ^^^ b := by rw [hab, BitVec.xor_assoc, BitVec.xor_assoc, BitVec.xor_self, BitVec.xor_zero]
  rw [← BitVec.xor_eq_zero_iff]
  exact (hfixed.iterate n).symm.trans (hzero _)

theorem shl32_iterate (k n : Nat) (a : Word) : (shl32 · k)^[n] a = shl32 a (n * k) := by
  induction n with
  | zero => simp [shl32]
  | succ n ih => rw [Function.iterate_succ_apply', ih, Nat.succ_mul]; exact (BitVec.shiftLeft_add a _ k).symm

theorem shr32_iterate (k n : Nat) (a : Word) : (shr32 · k)^[n] a = shr32 a (n * k) := by
  induction n with
  | zero => simp [shr32]
  | succ n ih => rw [Function.iterate_succ_apply', ih, Nat.succ_mul]; exact (BitVec.shiftRight_add a _ k).symm

/-- Steps 6 and 8 have this form. -/
theorem bijective_xor_shl32 {k : Nat} (hk : 0 < k) : Function.Bijective (fun a => xor32 a (shl32 a k)) := by
  refine bijective_xor_of_nilpotent (n := 32) (fun a b => BitVec.shiftLeft_xor_distrib a b k) fun a => ?_
  rw [shl32_iterate]
  exact BitVec.shiftLeft_eq_zero (Nat.le_mul_of_pos_right 32 hk)

/-- Step 7 has this form. -/
theorem bijective_xor_shr32 {k : Nat} (hk : 0 < k) : Function.Bijective (fun a => xor32 a (shr32 a k)) := by
  refine bijective_xor_of_nilpotent (n := 32) (fun a b => BitVec.ushiftRight_xor_distrib a b k) fun a => ?_
  rw [shr32_iterate]
  exact BitVec.ushiftRight_eq_zero (Nat.le_mul_of_pos_right 32 hk)

/-- Settles O14: step 3 has an inverse multiplier, steps 6, 7 and 8 XOR a value with a shift of itself, and two values
collide in step 2. -/
theorem whichMixStepsAreBijective : Obligations.WhichMixStepsAreBijective := by
  have hzeros : mixStep2 0x00000000#32 = 0x00000000#32 := by decide
  have hones : mixStep2 0xFFFFFFFF#32 = 0x00000000#32 := by decide
  refine ⟨mixStep3_bijective, bijective_xor_shl32 (by decide), bijective_xor_shr32 (by decide),
    bijective_xor_shl32 (by decide), ⟨hzeros, hones, fun hinj => ?step2⟩, mixStep3_toNat, by decide⟩
  exact absurd (hinj (hzeros.trans hones.symm)) (by decide)

/-! ### The hash (R69, R71) -/

@[simp] theorem hashOf_nil (o : FoldOrder) (w : BitVec 4) : hashOf o w [] = 0x00#8 := rfl

theorem hashOf_lt (o : FoldOrder) (w : BitVec 4) (d : List Byte) : (hashOf o w d).toNat < 2 ^ w.toNat := by
  cases d with
  | nil => exact Nat.two_pow_pos _
  | cons b d => exact digest_lt o w _

/-- Settles O50: the range holds at every WIDTH, so at the three legal ones. -/
theorem hashRangeAndEmptyInput : Obligations.HashRangeAndEmptyInput := fun o w d _ =>
  ⟨hashOf_nil o w, Nat.le_sub_one_of_lt (hashOf_lt o w d)⟩

/-- Settles O53: five hashes of at most eight bytes, each computed. -/
theorem sampleHashes : Obligations.SampleHashes := by
  refine ⟨?aaaa, ?ab, ?ba, ?zeroToSeven, ?aaaaDescending⟩
  case zeroToSeven => decide +kernel
  all_goals decide

end Sys2Proof.Machine
end

section
/-! PROOFS. Sequences of commands and of edges: what INIT and CFG forget (O27), the busy edges (O38), the words that
take effect (O41), and the whole way from power-on to a hash at the ports (O52). -/

namespace Sys2Proof.Machine

/-! ### Blocks that agree in all but their error flags (R33) -/

theorem AgreeButErrors.symm {r q : Regs} (h : AgreeButErrors r q) : AgreeButErrors q r :=
  ⟨h.acc.symm, h.lane.symm, h.width.symm, h.cfgv.symm, h.result.symm, h.ne.symm, h.done.symm⟩

theorem AgreeButErrors.trans {r q p : Regs} (h : AgreeButErrors r q) (k : AgreeButErrors q p) :
    AgreeButErrors r p :=
  ⟨h.acc.trans k.acc, h.lane.trans k.lane, h.width.trans k.width, h.cfgv.trans k.cfgv, h.result.trans k.result,
    h.ne.trans k.ne, h.done.trans k.done⟩

theorem AgreeButErrors.raise {s q : State} (h : AgreeButErrors s.toRegs q.toRegs) (e : ErrKind) :
    AgreeButErrors (raise e s).toRegs (raise e q).toRegs :=
  (agreeButErrors_raise e s).trans (h.trans (agreeButErrors_raise e q).symm)

/-- Sessions started at one configuration agree, whatever was held before (R59, R60). -/
theorem agreeButErrors_startSession {s q : State} (hw : s.width = q.width) (hv : s.cfgv = q.cfgv) :
    AgreeButErrors (startSession s).toRegs (startSession q).toRegs := ⟨rfl, rfl, hw, hv, rfl, rfl, rfl⟩

theorem agreeButErrors_configure (w : Byte) (s q : State) :
    AgreeButErrors (configure w s).toRegs (configure w q).toRegs := agreeButErrors_startSession rfl rfl

theorem AgreeButErrors.absorb {s q : State} (h : AgreeButErrors s.toRegs q.toRegs) (b : Byte) :
    AgreeButErrors (absorb b s).toRegs (absorb b q).toRegs where
  acc := by simp only [Machine.absorb, h.toMixState]
  lane := by simp only [Machine.absorb, h.toMixState]
  width := h.width
  cfgv := h.cfgv
  result := h.result
  ne := rfl
  done := rfl

theorem AgreeButErrors.publish {s q : State} (h : AgreeButErrors s.toRegs q.toRegs) :
    AgreeButErrors (publish s).toRegs (publish q).toRegs :=
  ⟨h.acc, h.lane, h.width, h.cfgv, h.finResult, h.ne, rfl⟩

/-- Two outcomes are next states that agree in all but their error flags. -/
def NextAgree (o o' : Host.Outcome State Fault Refusal) : Prop :=
  ∃ t u, o = .next t ∧ o' = .next u ∧ AgreeButErrors t.toRegs u.toRegs

/-- The check of R75 passes in both of two blocks that agree, or fails in both. -/
theorem AgreeButErrors.whenConfigured {s q t u : State} (h : AgreeButErrors s.toRegs q.toRegs)
    (htu : AgreeButErrors t.toRegs u.toRegs) : NextAgree (whenConfigured s t) (whenConfigured q u) := by
  cases hv : s.cfgv with
  | true => exact ⟨t, u, whenConfigured_of_cfgv hv t, whenConfigured_of_cfgv (h.cfgv ▸ hv) u, htu⟩
  | false =>
    exact ⟨_, _, whenConfigured_of_not_cfgv hv t, whenConfigured_of_not_cfgv (h.cfgv ▸ hv) u, h.raise .nocfg⟩

/-- A command keeps two blocks in agreement: no command reads an error flag. -/
theorem AgreeButErrors.exec {s q : State} (h : AgreeButErrors s.toRegs q.toRegs) (i : Instr) :
    NextAgree (exec i s) (exec i q) := by
  cases i with
  | nop => exact ⟨s, q, exec_nop s, exec_nop q, h⟩
  | cfg w =>
    cases hw : legalWidth w with
    | true =>
      exact ⟨_, _, exec_cfg_of_legal hw s, exec_cfg_of_legal hw q, agreeButErrors_configure w s q⟩
    | false => exact ⟨_, _, exec_cfg_of_not_legal hw s, exec_cfg_of_not_legal hw q, h.raise .cfg⟩
  | init => exact h.whenConfigured (agreeButErrors_startSession h.width h.cfgv)
  | abs b => exact h.whenConfigured (h.absorb b)
  | fin => exact h.whenConfigured h.publish

theorem AgreeButErrors.execAll {s q : State} (h : AgreeButErrors s.toRegs q.toRegs) (is : List Instr) :
    NextAgree (execAll is s) (execAll is q) := by
  induction is generalizing s q with
  | nil => exact ⟨s, q, rfl, rfl, h⟩
  | cons i is ih =>
    obtain ⟨t, u, ht, hu, htu⟩ := h.exec i
    rw [execAll_cons_of_next ht, execAll_cons_of_next hu]
    exact ih htu

/-- Settles O27: INIT and a valid CFG each lead to blocks that agree, and every command keeps them in agreement. -/
theorem initForgetsEverySession : Obligations.InitForgetsEverySession := by
  refine ⟨fun is s q hs hq hw => ?init, fun is w s q hw => ?cfg⟩
  case init =>
    rw [execAll_cons_of_next (exec_init_of_cfgv hs), execAll_cons_of_next (exec_init_of_cfgv hq)]
    exact (agreeButErrors_startSession hw (hs.trans hq.symm)).execAll is
  case cfg =>
    have hlegal := (legalWidth_iff w).2 hw
    rw [execAll_cons_of_next (exec_cfg_of_legal hlegal s), execAll_cons_of_next (exec_cfg_of_legal hlegal q)]
    exact (agreeButErrors_configure w s q).execAll is

/-! ### Edges in a row -/

theorem edges_succ_of_next {s t : State} (h : step s = .next t) (n : Nat) : edges (n + 1) s = edges n t := by
  rw [edges, h, andThen_next]

theorem edges_add_of_next {m : Nat} {s t : State} (h : edges m s = .next t) (n : Nat) :
    edges (m + n) s = edges n t := by
  rw [edges_add, h, andThen_next]

theorem wasReset_of_edges {n : Nat} {s t : State} (hw : s.wasReset = true) (h : edges n s = .next t) :
    t.wasReset = true := by
  induction n generalizing s with
  | zero => cases h; exact hw
  | succ n ih =>
    obtain ⟨u, hu, ht⟩ := andThen_eq_next h
    exact ih (wasReset_of_step hw hu) ht

/-! ### The busy edges after an accepted command (R86) -/

/-- An accepting edge leaves the block busy for a drawn number of edges below CMD_LATENCY. -/
theorem busy_lt_of_accepts {s t : State} (ha : accepts s = true) (h : step s = .next t) :
    t.busy < Config.cmdLatency := by
  obtain ⟨-, -, -, hb⟩ := (accepts_iff s).1 ha
  exact busy_lt_of_step (hb ▸ Nat.succ_pos _) h

/-- Settles O38: without `rst` the busy edges are quiet, so the registers stay and `cmd_ready` is 0 until the last. -/
theorem readyReturnsWithinLatency : Obligations.ReadyReturnsWithinLatency := by
  intro s t ha h
  have hw : t.wasReset = true := wasReset_of_step ((accepts_iff s).1 ha).1 h
  refine ⟨busy_lt_of_accepts ha h, fun hrst => ?stall⟩
  have quiet : ∀ k ≤ t.busy, edges k t = .next (quietEdges k t) := fun k hk =>
    edges_of_busy hw hk fun p hp => hrst p (List.take_subset_take_left _ hk hp)
  refine ⟨fun k u hk hu => ?during, quietEdges t.busy t, quiet _ le_rfl, rfl, rfl, fun hr => ?after⟩
  case during =>
    rw [quiet k hk.le] at hu
    cases hu
    have hbusy : (quietEdges k t).busy ≠ 0 := Nat.sub_ne_zero_of_lt hk
    refine ⟨?_, quietEdges_toRegs k t⟩
    rw [← Bool.not_eq_true, cmdReady_iff (s := quietEdges k t) hw]
    exact fun ⟨_, hidle⟩ => hbusy hidle
  case after => exact (cmdReady_iff (s := quietEdges t.busy t) hw).2 ⟨hr, Nat.sub_self _⟩

/-! ### Only offered words take effect (R44) -/

/-- The words offered at some edges, in their order. -/
def offeredWords (ps : List Pins) : List CmdWord := (ps.filter (fun p => p.cmdValid)).map (fun p => p.cmd)

/-- The words offered from the next edge on stand among those offered from this one on. -/
theorem offeredWords_tail_sublist (ps : List Pins) (n : Nat) :
    (offeredWords (ps.tail.take n)).Sublist (offeredWords (ps.take (n + 1))) := by
  cases ps with
  | nil => simp
  | cons p ps => exact ((List.sublist_cons_self p (ps.take n)).filter _).map _

/-- The word that an edge accepts is the first of those offered from it on. -/
theorem offeredWords_of_accepts {s : State} (ha : accepts s = true) (n : Nat) :
    offeredWords (s.inputs.take (n + 1)) = (pins s).cmd :: offeredWords (s.inputs.tail.take n) := by
  obtain ⟨-, -, hv, -⟩ := (accepts_iff s).1 ha
  unfold pins at hv ⊢
  cases hi : s.inputs with
  | nil => rw [hi] at hv; exact absurd hv (by decide)
  | cons p ps =>
    have hp : p.cmdValid = true := by rwa [hi] at hv
    simp [offeredWords, hp]

/-- Settles O41, by induction on the edges: an accepting one takes the first word offered, a quiet one none. -/
theorem onlyOfferedWordsTakeEffect : Obligations.OnlyOfferedWordsTakeEffect := by
  intro n
  induction n with
  | zero => exact fun s _ _ => ⟨s, [], s, rfl, List.nil_sublist _, rfl, rfl⟩
  | succ n ih =>
    intro s hw hr
    obtain ⟨hnow, hlater⟩ := rst_of_take_succ hr
    cases ha : accepts s with
    | true =>
      obtain ⟨v, hv⟩ := execWord_total (pins s).cmd s
      obtain ⟨-, hwv, hinputs, -, -⟩ := execWord_env hv
      have hnext : (acceptEdge v).inputs = s.inputs.tail := congrArg List.tail hinputs
      obtain ⟨t, ws, u, ht, hsub, hu, htu⟩ := ih (acceptEdge v) (hwv.trans hw) (hnext ▸ hlater)
      obtain ⟨x, hx, hux⟩ := execWords_of_toRegs_eq (acceptEdge_toRegs v) hu
      refine ⟨t, (pins s).cmd :: ws, x, (edges_succ_of_next (step_of_accepted_word ha hv) n).trans ht, ?words,
        (execWords_cons_of_next hv ws).trans hx, htu.trans hux⟩
      show ((pins s).cmd :: ws).Sublist (offeredWords (s.inputs.take (n + 1)))
      rw [offeredWords_of_accepts ha, ← hnext]
      exact hsub.cons_cons _
    | false =>
      obtain ⟨t, ws, u, ht, hsub, hu, htu⟩ := ih (quietEdge s) hw hlater
      obtain ⟨x, hx, hux⟩ := execWords_of_toRegs_eq (quietEdge_toRegs s) hu
      exact ⟨t, ws, x, (edges_succ_of_next (step_of_not_accepts hw hnow ha) n).trans ht,
        hsub.trans (offeredWords_tail_sublist s.inputs n), hx, htu.trans hux⟩

/-! ### From power-on to a hash at the ports (R85) -/

/-- The words of commands do what the commands do. -/
theorem execWords_map_encode (is : List Instr) (s : State) : execWords (is.map encode) s = execAll is s := by
  induction is generalizing s with
  | nil => rfl
  | cons i is ih =>
    obtain ⟨t, ht⟩ := exec_total i s
    have hword : execWord (encode i) s = .next t := (execWord_of_decode (decode_encode i) s).trans ht
    rw [execAll_cons_of_next ht, List.map_cons, execWords_cons_of_next hword, ih]

/-- ABS commands keep the error flags of a configured block. -/
theorem errLine_absorbBytes (bs : List Byte) (s : State) : errLine (absorbBytes bs s).toRegs = errLine s.toRegs := by
  induction bs generalizing s with
  | nil => rfl
  | cons b bs ih => rw [absorbBytes_cons, ih]; rfl

/-- Words held to a block that has been reset, with nothing driven after them, take effect and leave after some more
edges a block that is ready: it only has to end the last command. -/
theorem edges_of_schedule_ready {ws : List CmdWord} {s u : State} (hw : s.wasReset = true)
    (hi : s.inputs = schedule ws s.busy s.stalls) (hu : execWords ws s = .next u) :
    ∃ n t, edges n s = .next t ∧ outputsValid t = true ∧ t.toRegs = u.toRegs := by
  obtain ⟨n, t, v, ht, hv, htv, hrest⟩ := heldWordsTakeEffectInOrder ws s [] hw (by rw [hi, List.append_nil])
  obtain rfl : u = v := by simpa [hu] using hv
  have htw : t.wasReset = true := wasReset_of_edges hw ht
  have hquiet : edges t.busy t = .next (quietEdges t.busy t) := edges_of_busy htw le_rfl (by simp [hrest])
  refine ⟨n + t.busy, quietEdges t.busy t, (edges_add_of_next ht _).trans hquiet, ?valid, htv⟩
  rw [outputsValid_iff]
  exact ⟨htw, by simp [pins, hrest, Pins.idle], Nat.sub_self _⟩

/-- Settles O52: a reset edge, then the held words of CFG, ABS of each byte and FIN, whose end state is a published
session of exactly those bytes without an error. -/
theorem bootThenHashAtThePorts : Obligations.BootThenHashAtThePorts := by
  intro s p w d hw hp hi
  have hrst : (pins s).rst = true := by rw [pins, hi]; exact hp
  have hrun : execWords ((expandHashw w d).map encode) (resetEdge s) =
      .next (publish (absorbBytes d (configure w (resetEdge s)))) := by
    rw [execWords_map_encode, expandHashw, execAll_cons_of_next (exec_cfg_of_legal ((legalWidth_iff w).2 hw) _)]
    exact execAll_abs_fin_eq_publish d (configure_cfgv w _)
  have hinputs : (resetEdge s).inputs = schedule ((expandHashw w d).map encode) 0 s.stalls := by
    rw [resetEdge_inputs, hi, List.tail_cons]
  obtain ⟨n, t, ht, hv, hregs⟩ := edges_of_schedule_ready (resetEdge_wasReset s) hinputs hrun
  have hsession : HoldsSession t.toRegs d := hregs ▸ ((holdsSession_configure w _).absorbBytes d).publish
  have hwidth : t.width = w.setWidth 4 := by rw [hregs]; simp [widthField]
  have hcfgv : t.cfgv = true := by rw [hregs]; simp
  have hdone : t.done = true := by rw [hregs]; simp
  have herr : errLine t.toRegs = false := by rw [hregs]; exact errLine_absorbBytes d _
  obtain ⟨cfgv, ne, done, -⟩ := statusWord_flags t.toRegs
  refine ⟨n + 1, t, (edges_succ_of_next (step_of_rst hrst) n).trans ht, cmdReady_of_valid hv, ?_⟩
  rw [statusPort_of_valid hv, resultPort_of_valid hv, errPort_of_valid hv, statusWord_width, cfgv, ne, done, ← hwidth]
  exact ⟨hsession.current hdone, herr, hcfgv, hsession.nonempty, hdone, rfl⟩

end Sys2Proof.Machine
end

section
/-! PROOFS. Numbers as text: the renderings of a hash value read back (O54). -/

namespace Sys2Proof.Machine

/-! ### Reading digits -/

theorem parseDigits_cons {base a d : Nat} {c : Char} (hc : digitValue c = some d) (hd : d < base) (cs : List Char) :
    parseDigits base a (c :: cs) = parseDigits base (a * base + d) cs := by
  simp [parseDigits, hc, hd]

theorem parseNumber_of_ne_nil {cs : List Char} (h : cs ≠ []) (base : Nat) :
    parseNumber base cs = parseDigits base 0 cs := by
  cases cs with
  | nil => exact absurd rfl h
  | cons c cs => rfl

/-! ### The binary rendering -/

theorem digitValue_bitChar (b : Bool) : digitValue (bitChar b) = some b.toNat := by cases b <;> decide

@[simp] theorem binString_length (n : Nat) (v : Byte) : (binString n v).length = n := by
  induction n with
  | zero => rfl
  | succ n ih => rw [binString, List.length_cons, ih]

/-- The digits, most significant first. -/
theorem binString_getElem? {n i : Nat} (v : Byte) (hi : i < n) :
    (binString n v)[i]? = some (bitChar (v.getLsbD (n - 1 - i))) := by
  induction n generalizing i with
  | zero => exact absurd hi (Nat.not_lt_zero i)
  | succ n ih =>
    cases i with
    | zero => rfl
    | succ i =>
      have hindex : n + 1 - 1 - (i + 1) = n - 1 - i := by omega
      rw [binString, List.getElem?_cons_succ, ih (Nat.lt_of_succ_lt_succ hi), hindex]

/-- Reading the `n` low bits on from `a`. -/
theorem parseDigits_binString (n a : Nat) (v : Byte) :
    parseDigits 2 a (binString n v) = some (a * 2 ^ n + v.toNat % 2 ^ n) := by
  induction n generalizing a with
  | zero => simp [binString, parseDigits, Nat.mod_one]
  | succ n ih =>
    have hbit : v.toNat % 2 ^ (n + 1) = v.toNat % 2 ^ n + 2 ^ n * (v.getLsbD n).toNat := by
      rw [← BitVec.testBit_toNat, Nat.toNat_testBit]
      exact Nat.mod_mul
    rw [binString, parseDigits_cons (digitValue_bitChar _) (Bool.toNat_lt _), ih, hbit]
    ring_nf

/-! ### The hexadecimal rendering -/

theorem digitValue_hexChar (c : HexCase) {d : Nat} (hd : d < 16) : digitValue (hexChar c d) = some d := by
  revert d
  cases c <;> decide

@[simp] theorem hexDigits_length (c : HexCase) (n v : Nat) : (hexDigits c n v).length = n := by
  induction n with
  | zero => rfl
  | succ n ih => rw [hexDigits, List.length_cons, ih]

/-- Reading the `n` low hexadecimal digits on from `a`. -/
theorem parseDigits_hexDigits (c : HexCase) (n a v : Nat) :
    parseDigits 16 a (hexDigits c n v) = some (a * 16 ^ n + v % 16 ^ n) := by
  induction n generalizing a with
  | zero => simp [hexDigits, parseDigits, Nat.mod_one]
  | succ n ih =>
    have hdigit : v / 16 ^ n % 16 < 16 := Nat.mod_lt _ (by decide)
    have hmod : v % 16 ^ (n + 1) = v % 16 ^ n + 16 ^ n * (v / 16 ^ n % 16) := Nat.mod_mul
    rw [hexDigits, parseDigits_cons (digitValue_hexChar c hdigit) hdigit, ih, hmod]
    ring_nf

/-- Digits enough for a value read back as the value. -/
theorem parseNumber_hexDigits (c : HexCase) {n v : Nat} (hn : 0 < n) (hv : v < 16 ^ n) :
    parseNumber 16 (hexDigits c n v) = some v := by
  have hne : hexDigits c n v ≠ [] := List.ne_nil_of_length_pos (by rwa [hexDigits_length])
  rw [parseNumber_of_ne_nil hne, parseDigits_hexDigits, Nat.zero_mul, Nat.zero_add, Nat.mod_eq_of_lt hv]

theorem parseNumber_binString {n : Nat} {v : Byte} (hn : 0 < n) (hv : v.toNat < 2 ^ n) :
    parseNumber 2 (binString n v) = some v.toNat := by
  have hne : binString n v ≠ [] := List.ne_nil_of_length_pos (by rwa [binString_length])
  rw [parseNumber_of_ne_nil hne, parseDigits_binString, Nat.zero_mul, Nat.zero_add, Nat.mod_eq_of_lt hv]

/-- `ceil(width/4)` hexadecimal digits hold `width` bits (R8). -/
theorem two_pow_le_hexLength (w : Nat) : 2 ^ w ≤ 16 ^ hexLength w := by
  have hw : w ≤ 4 * hexLength w := by unfold hexLength; omega
  calc 2 ^ w ≤ 2 ^ (4 * hexLength w) := Nat.pow_le_pow_right (by decide) hw
    _ = 16 ^ hexLength w := by rw [Nat.pow_mul]

/-- Settles O54: both renderings have enough digits for a value in range, so reading them gives the value. -/
theorem renderingsReadBack : Obligations.RenderingsReadBack := by
  intro w v c hw hv
  have hpos : 0 < w := by omega
  have hhex : 0 < hexLength w := by unfold hexLength; omega
  refine ⟨binString_length w v, parseNumber_binString hpos hv, fun i => binString_getElem? v, ?length,
    parseNumber_hexDigits c hhex (hv.trans_le (two_pow_le_hexLength w))⟩
  rw [hexString, hexDigits_length]
  rcases hw with rfl | rfl | rfl <;> rfl

end Sys2Proof.Machine
end

section
/-! PROOFS. The assembler (spec/30_encoding.md R56, R57): a line's words (O8), and how a line of one mnemonic and one
operand is read (O7). -/

namespace Sys2Proof.Machine

/-! ### The words of a line -/

theorem operandByte_setWidth {n : Nat} (hn : n ≤ 255) : (operandByte n).setWidth 16 = BitVec.ofNat 16 n := by
  apply BitVec.eq_of_toNat_eq
  simp only [operandByte, BitVec.toNat_setWidth, BitVec.toNat_ofNat]
  omega

/-- The word of CFG with an operand in range. -/
theorem encode_cfg_operandByte {n : Nat} (hn : n ≤ 255) :
    encode (.cfg (operandByte n)) = 0x1000#16 ||| BitVec.ofNat 16 n := by
  rw [← cfgWord_eq_encode, operandByte_setWidth hn]

/-- The word of ABS with an operand in range. -/
theorem encode_abs_operandByte {n : Nat} (hn : n ≤ 255) :
    encode (.abs (operandByte n)) = 0x3000#16 ||| BitVec.ofNat 16 n := by
  rw [← operandByte_setWidth hn]
  exact (assembleFields_or_operand 0x3#4 _).symm

theorem operandFits_iff (n : Nat) : operandFits n = true ↔ n ≤ 255 := decide_eq_true_iff

theorem assemble_of_wf {l : AsmLine} (h : l.wf = true) : assemble l = some (lineWords l) := if_pos h

theorem assemble_of_not_wf {l : AsmLine} (h : l.wf = false) : assemble l = none := by simp [assemble, h]

theorem assemble_cfg {n : Nat} (hn : n ≤ 255) : assemble (.cfg n) = some [encode (.cfg (operandByte n))] :=
  assemble_of_wf (l := .cfg n) ((operandFits_iff n).2 hn)

theorem assemble_abs {n : Nat} (hn : n ≤ 255) : assemble (.abs n) = some [encode (.abs (operandByte n))] :=
  assemble_of_wf (l := .abs n) ((operandFits_iff n).2 hn)

theorem operandFits_of_lt {n : Nat} (hn : 255 < n) : operandFits n = false := by
  rw [← Bool.not_eq_true, operandFits_iff]
  omega

/-- The common end of HASH and HASHW: one ABS per byte, then FIN (R57). -/
theorem map_encode_abs_fin {bs : List Nat} (hbs : ∀ b ∈ bs, b ≤ 255) :
    ((bs.map operandByte).map Instr.abs ++ [Instr.fin]).map encode =
      bs.map (fun b => 0x3000#16 ||| BitVec.ofNat 16 b) ++ [0x4000#16] := by
  have habs : ((bs.map operandByte).map Instr.abs).map encode = bs.map (fun b => 0x3000#16 ||| BitVec.ofNat 16 b) := by
    rw [List.map_map, List.map_map]
    exact List.map_congr_left fun b hb => encode_abs_operandByte (hbs b hb)
  rw [List.map_append, habs]
  rfl

theorem all_operandFits {bs : List Nat} (hbs : ∀ b ∈ bs, b ≤ 255) : bs.all operandFits = true :=
  List.all_eq_true.2 fun b hb => (operandFits_iff b).2 (hbs b hb)

theorem assemble_hash {bs : List Nat} (hbs : ∀ b ∈ bs, b ≤ 255) :
    assemble (.hash bs) =
      some (0x2000#16 :: (bs.map (fun b => 0x3000#16 ||| BitVec.ofNat 16 b) ++ [0x4000#16])) := by
  rw [assemble_of_wf (l := .hash bs) (all_operandFits hbs), lineWords, expandHash, List.map_cons,
    map_encode_abs_fin hbs]
  rfl

theorem assemble_hashw {w : Nat} {bs : List Nat} (hw : w ≤ 255) (hbs : ∀ b ∈ bs, b ≤ 255) :
    assemble (.hashw w bs) =
      some ((0x1000#16 ||| BitVec.ofNat 16 w) ::
        (bs.map (fun b => 0x3000#16 ||| BitVec.ofNat 16 b) ++ [0x4000#16])) := by
  have hwf : (AsmLine.hashw w bs).wf = true :=
    Bool.and_eq_true_iff.2 ⟨(operandFits_iff w).2 hw, all_operandFits hbs⟩
  rw [assemble_of_wf hwf, lineWords, expandHashw, List.map_cons, map_encode_abs_fin hbs, encode_cfg_operandByte hw]

/-- Settles O8: the expansions word by word, and HASH with no bytes as the session of no bytes. -/
theorem pseudoInstructionsExpand : Obligations.PseudoInstructionsExpand := by
  refine ⟨fun bs hbs => ⟨assemble_hash hbs, fun w hw => assemble_hashw hw hbs⟩, fun s hv => ?empty, by decide⟩
  have hrun : execWords [0x2000#16, 0x4000#16] s = execAll [.init, .fin] s := execWords_map_encode [.init, .fin] s
  obtain ⟨t, ht, hresult, -, -⟩ := execAll_session (d := []) (exec_init_of_cfgv hv) hv rfl
    (holdsSession_startSession s) (is := [.init, .fin]) (by decide)
  exact ⟨t, hrun.trans ht, hresult⟩

/-! ### Reading a line of one mnemonic and one operand -/

/-- A character that ends no mnemonic and no operand: no white space, no comma, no `;`. -/
def isPlainChar (c : Char) : Bool := !isBlankChar c && c != ',' && c != ';'

theorem isPlainChar_iff (c : Char) : isPlainChar c = true ↔ isBlankChar c = false ∧ c ≠ ',' ∧ c ≠ ';' := by
  simp [isPlainChar, and_assoc]

section
variable {c : Char} (hc : isPlainChar c = true)
include hc

theorem isBlankChar_of_plain : isBlankChar c = false := ((isPlainChar_iff c).1 hc).1
theorem ne_comma_of_plain : c ≠ ',' := ((isPlainChar_iff c).1 hc).2.1
theorem ne_semicolon_of_plain : c ≠ ';' := ((isPlainChar_iff c).1 hc).2.2

end

/-- Every digit is plain, because no separator has a digit's value. -/
theorem isPlainChar_of_digitValue {c : Char} {d : Nat} (h : digitValue c = some d) : isPlainChar c = true := by
  have hne : ∀ x, digitValue x = none → c ≠ x := by
    rintro x hx rfl
    simp [h] at hx
  simp [isPlainChar, isBlankChar, hne ' ' rfl, hne '\t' rfl, hne ',' rfl, hne ';' rfl]

/-- What is read as a number consists of digits. -/
theorem digitValue_of_parseDigits {base a n : Nat} {cs : List Char} (h : parseDigits base a cs = some n) :
    ∀ c ∈ cs, ∃ d, digitValue c = some d := by
  induction cs generalizing a with
  | nil => simp
  | cons c cs ih =>
    unfold parseDigits at h
    cases hc : digitValue c with
    | none => simp [hc] at h
    | some d =>
      by_cases hd : d < base
      · exact List.forall_mem_cons.2 ⟨⟨d, hc⟩, ih (by simpa [hc, hd] using h)⟩
      · simp [hc, hd] at h

theorem digitValue_of_parseNumber {base n : Nat} {cs : List Char} (h : parseNumber base cs = some n) :
    ∀ c ∈ cs, ∃ d, digitValue c = some d := by
  cases cs with
  | nil => simp
  | cons c cs => exact digitValue_of_parseDigits h

/-- A number without `x` among its digits is read in decimal. -/
theorem parseOperand_of_decimal {cs : List Char} {n : Nat} (h : parseNumber 10 cs = some n) :
    parseOperand cs = some n := by
  unfold parseOperand
  split
  · obtain ⟨d, hd⟩ := digitValue_of_parseNumber h 'x' (by simp)
    cases hd
  · exact h

/-- An operand consists of plain characters. -/
theorem isPlainChar_of_parseOperand {cs : List Char} {n : Nat} (h : parseOperand cs = some n) :
    ∀ c ∈ cs, isPlainChar c = true := by
  have digits : ∀ {base ds}, parseNumber base ds = some n → ∀ c ∈ ds, isPlainChar c = true := fun hds c hc =>
    (digitValue_of_parseNumber hds c hc).elim fun _ => isPlainChar_of_digitValue
  unfold parseOperand at h
  split at h
  · exact List.forall_mem_cons.2 ⟨by decide, List.forall_mem_cons.2 ⟨by decide, digits h⟩⟩
  · exact digits h

theorem ne_nil_of_parseOperand {cs : List Char} {n : Nat} (h : parseOperand cs = some n) : cs ≠ [] := by
  rintro rfl
  cases h

/-- Text without `;` has no comment to drop. -/
theorem dropComment_eq_self {cs : List Char} (h : ∀ c ∈ cs, c ≠ ';') : dropComment cs = cs :=
  List.takeWhile_eq_self_iff.2 fun c hc => by simpa using h c hc

/-- A comment changes nothing (R56). -/
theorem dropComment_append_comment (text comment : List Char) :
    dropComment (text ++ ';' :: comment) = dropComment text := by
  induction text with
  | nil => rfl
  | cons c text ih =>
    unfold dropComment at ih ⊢
    rw [List.cons_append, List.takeWhile_cons, List.takeWhile_cons, ih]

/-- Text that begins with a plain character begins with no white space. -/
theorem dropWhile_blank_of_plain {m : List Char} (hm : m ≠ []) (hp : ∀ c ∈ m, isPlainChar c = true)
    (rest : List Char) : (m ++ rest).dropWhile isBlankChar = m ++ rest := by
  cases m with
  | nil => exact absurd rfl hm
  | cons c m =>
    have hblank : isBlankChar c = false := isBlankChar_of_plain (hp c List.mem_cons_self)
    exact List.dropWhile_cons_of_neg (by simp [hblank])

/-- A part of text that begins and ends with plain characters is trimmed already. -/
theorem trimBlanks_eq_self {cs : List Char} (hfirst : cs.dropWhile isBlankChar = cs)
    (hlast : cs.reverse.dropWhile isBlankChar = cs.reverse) : trimBlanks cs = cs := by
  rw [trimBlanks, hfirst, hlast, List.reverse_reverse]

/-- Text without commas is one field. -/
theorem splitCommas_eq_singleton {cs : List Char} (h : ∀ c ∈ cs, c ≠ ',') : splitCommas cs = [cs] := by
  induction cs with
  | nil => rfl
  | cons c cs ih =>
    obtain ⟨hc, hcs⟩ := List.forall_mem_cons.1 h
    rw [splitCommas, if_neg hc, ih hcs]

section
variable {m ops : List Char} {n : Nat} (hm : m ≠ []) (hplain : ∀ c ∈ m, isPlainChar c = true)
  (h : parseOperand ops = some n)
include h

theorem dropWhile_blank_reverse_operand (before : List Char) :
    (before ++ ops).reverse.dropWhile isBlankChar = (before ++ ops).reverse := by
  rw [List.reverse_append]
  exact dropWhile_blank_of_plain (by simpa using ne_nil_of_parseOperand h)
    (fun c hc => isPlainChar_of_parseOperand h c (List.mem_reverse.1 hc)) _

theorem trimBlanks_operand : trimBlanks ops = ops := by
  refine trimBlanks_eq_self ?_ (dropWhile_blank_reverse_operand h [])
  simpa using dropWhile_blank_of_plain (ne_nil_of_parseOperand h) (isPlainChar_of_parseOperand h) []

/-- The operands of a line that has one. -/
theorem parseOperands_operand : parseOperands (' ' :: ops) = some [n] := by
  have htrim : trimBlanks (' ' :: ops) = ops := trimBlanks_operand h
  have hsplit : splitCommas ops = [ops] :=
    splitCommas_eq_singleton fun c hc => ne_comma_of_plain (isPlainChar_of_parseOperand h c hc)
  unfold parseOperands
  rw [htrim]
  cases ops with
  | nil => exact absurd rfl (ne_nil_of_parseOperand h)
  | cons c cs => simp [hsplit, trimBlanks_operand h, h]

include hm hplain

/-- The mnemonic and the rest of a line that has one operand. -/
theorem parseLine_operand : parseLine (m ++ ' ' :: ops) = lineOf m (' ' :: ops) := by
  have hcomment : dropComment (m ++ ' ' :: ops) = m ++ ' ' :: ops := by
    refine dropComment_eq_self fun c hc => ?_
    rcases List.mem_append.1 hc with hc | hc
    · exact ne_semicolon_of_plain (hplain c hc)
    · rcases List.mem_cons.1 hc with rfl | hc
      · decide
      · exact ne_semicolon_of_plain (isPlainChar_of_parseOperand h c hc)
  have htrim : trimBlanks (m ++ ' ' :: ops) = m ++ ' ' :: ops := by
    refine trimBlanks_eq_self (dropWhile_blank_of_plain hm hplain _) ?_
    rw [List.append_cons]
    exact dropWhile_blank_reverse_operand h _
  have hword : ∀ c ∈ m, (!isBlankChar c) = true := fun c hc => by simp [isBlankChar_of_plain (hplain c hc)]
  have hmnemonic : (m ++ ' ' :: ops).takeWhile (fun x => !isBlankChar x) = m := by
    rw [List.takeWhile_append_of_pos hword, List.takeWhile_cons_of_neg (by decide), List.append_nil]
  have hrest : (m ++ ' ' :: ops).dropWhile (fun x => !isBlankChar x) = ' ' :: ops := by
    rw [List.dropWhile_append_of_pos hword, List.dropWhile_cons_of_neg (by decide)]
  unfold parseLine
  rw [hcomment, htrim]
  cases m with
  | nil => exact absurd rfl hm
  | cons c m => exact congrArg₂ lineOf hmnemonic hrest

theorem assembleText_operand {l : AsmLine} (hl : lineOf m (' ' :: ops) = some l) :
    assembleText (m ++ ' ' :: ops) = assemble l := by
  rw [assembleText, parseLine_operand hm hplain h, hl, Option.bind_some]

end

/-- A line of CFG is read with its operand. -/
theorem assembleText_cfg {ops : List Char} {n : Nat} (h : parseOperand ops = some n) :
    assembleText (['C', 'F', 'G', ' '] ++ ops) = assemble (.cfg n) := by
  refine assembleText_operand (m := ['C', 'F', 'G']) (by simp) (by simp [isPlainChar, isBlankChar]) h ?_
  simp [lineOf, parseOperands_operand h]

/-- A line of ABS is read with its operand. -/
theorem assembleText_abs {ops : List Char} {n : Nat} (h : parseOperand ops = some n) :
    assembleText (['A', 'B', 'S', ' '] ++ ops) = assemble (.abs n) := by
  refine assembleText_operand (m := ['A', 'B', 'S']) (by simp) (by simp [isPlainChar, isBlankChar]) h ?_
  simp [lineOf, parseOperands_operand h]

/-! ### The operands R56 writes -/

/-- A decimal digit has the value that the library's reader gives it. -/
theorem digitValue_of_isDigit {c : Char} (hc : c.isDigit = true) :
    digitValue c = some (c.toNat - '0'.toNat) ∧ c.toNat - '0'.toNat < 10 := by
  obtain ⟨h48, h57⟩ : 48 ≤ c.toNat ∧ c.toNat ≤ 57 := by simpa [Char.isDigit, UInt32.le_iff_toNat_le] using hc
  have hzero : '0'.toNat = 48 := rfl
  rw [hzero]
  exact ⟨if_pos ⟨h48, h57⟩, by omega⟩

theorem parseDigits_of_isDigit {cs : List Char} (hcs : ∀ c ∈ cs, c.isDigit = true) (a : Nat) :
    parseDigits 10 a cs = some (Nat.ofDigitChars 10 cs a) := by
  induction cs generalizing a with
  | nil => rfl
  | cons c cs ih =>
    obtain ⟨hc, hcs⟩ := List.forall_mem_cons.1 hcs
    obtain ⟨hvalue, hlt⟩ := digitValue_of_isDigit hc
    rw [parseDigits_cons hvalue hlt, ih hcs, Nat.ofDigitChars_cons, Nat.mul_comm]

theorem parseOperand_toDigits (n : Nat) : parseOperand (Nat.toDigits 10 n) = some n := by
  apply parseOperand_of_decimal
  rw [parseNumber_of_ne_nil Nat.toDigits_ne_nil,
    parseDigits_of_isDigit fun c => Nat.isDigit_of_mem_toDigits (by decide) (by decide), Nat.ofDigitChars_ten_toDigits]

theorem parseOperand_hexDigits (b : Byte) : parseOperand ('0' :: 'x' :: hexDigits .upper 2 b.toNat) = some b.toNat :=
  parseNumber_hexDigits .upper (n := 2) (by decide) b.isLt

theorem operandByte_toNat (b : Byte) : operandByte b.toNat = b := by simp [operandByte]

/-- The text of a command assembles to its word. -/
theorem assembleText_asmText (i : Instr) : assembleText (asmText i) = some [encode i] := by
  cases i with
  | nop => decide
  | cfg w =>
    have htext := assembleText_cfg (parseOperand_hexDigits w)
    rwa [assemble_cfg (Nat.le_of_lt_succ w.isLt), operandByte_toNat] at htext
  | init => decide
  | abs b =>
    have htext := assembleText_abs (parseOperand_hexDigits b)
    rwa [assemble_abs (Nat.le_of_lt_succ b.isLt), operandByte_toNat] at htext
  | fin => decide

/-- Settles O7: each line's word, out of range none; an operand is read from its digits in either base. -/
theorem assemblerFollowsItsTable : Obligations.AssemblerFollowsItsTable := by
  refine ⟨⟨rfl, rfl, rfl⟩, fun n hn => ?inRange, fun n hn => ?tooLarge, assembleText_asmText,
    fun text comment => ?comment⟩
  case inRange =>
    rw [assembleText_cfg (parseOperand_toDigits n), assembleText_abs (parseOperand_toDigits n), assemble_cfg hn,
      assemble_abs hn, encode_cfg_operandByte hn, encode_abs_operandByte hn]
    exact ⟨rfl, rfl, rfl, rfl⟩
  case tooLarge => exact ⟨assemble_of_not_wf (operandFits_of_lt hn), assemble_of_not_wf (operandFits_of_lt hn)⟩
  case comment => rw [assembleText, assembleText, parseLine, parseLine, dropComment_append_comment]

end Sys2Proof.Machine
end
